-- ==== Sys2Proof/Word.lean ====
section
/-! DEFINITION. The word types of the r_i_j_cpu CORE (00_scope.md R8, R9, R12, R17). -/

namespace Sys2Proof

/-- A 32-bit value: register contents, the program counter, an address, an instruction word (R8, R12). -/
abbrev Word := BitVec 32

/-- One byte of memory (R28). -/
abbrev Byte := BitVec 8

/-- The index of a general register, as the 5-bit fields rs, rt and rd hold it (R9, R17). -/
abbrev Reg := BitVec 5

end Sys2Proof
end

