-- ==== Sys2Proof/Config.lean ====
section
/-! DEFINITION. The four parameters a model of this hardware takes (00_scope.md R10, R11).
Their types stand here. The default values stand where a later repair can reach them:
`Config.defaultFunctMap` in Decode.lean, the others in Machine/Defaults.lean.
There is no free value: the spec leaves no result of an instruction undefined. -/

namespace Sys2Proof

/-- `SRA_MODE` (42_shift.md R82): what `sra` shifts in at the top. -/
inductive SraMode where
  /-- Copies of bit 31: the hardware's behaviour. -/
  | arithmetic
  /-- Zeros, as `srl`: for parity with the original code. -/
  | logical
  deriving DecidableEq, Repr

/-- `EA_WRAP` (44_load_store.md R88): an effective-address sum outside 0 to 2^32 - 1. -/
inductive EaWrap where
  /-- The sum is reduced modulo 2^32. -/
  | wrap
  /-- The sum raises MemoryBoundsFatal. -/
  | fatal
  deriving DecidableEq, Repr

/-- `FUNCT_MAP` (30_encoding.md R57): the 6-bit funct value of each R-type instruction. -/
structure FunctMap where
  add : BitVec 6
  sub : BitVec 6
  and : BitVec 6
  or : BitVec 6
  xor : BitVec 6
  nor : BitVec 6
  slt : BitVec 6
  sll : BitVec 6
  srl : BitVec 6
  sra : BitVec 6
  jr : BitVec 6
  deriving DecidableEq, Repr

/-- The parameters of one machine (R10, R11). They are fixed for the machine and are no state. -/
structure Params where
  /-- `MEM_SIZE`, the memory capacity in bytes. -/
  memSize : Nat
  sraMode : SraMode
  eaWrap : EaWrap
  functMap : FunctMap
  deriving DecidableEq, Repr

end Sys2Proof
end

