-- ==== Sys2Proof/Syntax.lean ====
section
/-! DEFINITION. The instructions, one constructor per row of spec/opcode_table.json in the table's
order, and the assembler's forms of them (30_encoding.md R60, R61). -/

namespace Sys2Proof

/-- The 22 instructions (00_scope.md R2), each with the fields it uses (30_encoding.md R48 to R51, R55),
in the operand order of R60. A field an instruction ignores is no operand. -/
inductive Instr where
  | add (rd rs rt : Reg)
  | sub (rd rs rt : Reg)
  | and (rd rs rt : Reg)
  | or (rd rs rt : Reg)
  | xor (rd rs rt : Reg)
  | nor (rd rs rt : Reg)
  | slt (rd rs rt : Reg)
  | sll (rd rt : Reg) (sa : BitVec 5)
  | srl (rd rt : Reg) (sa : BitVec 5)
  | sra (rd rt : Reg) (sa : BitVec 5)
  | addi (rt rs : Reg) (imm : BitVec 16)
  | andi (rt rs : Reg) (imm : BitVec 16)
  | ori (rt rs : Reg) (imm : BitVec 16)
  | xori (rt rs : Reg) (imm : BitVec 16)
  | slti (rt rs : Reg) (imm : BitVec 16)
  | lw (rt rs : Reg) (imm : BitVec 16)
  | sw (rt rs : Reg) (imm : BitVec 16)
  | beq (rs rt : Reg) (imm : BitVec 16)
  | bne (rs rt : Reg) (imm : BitVec 16)
  | j (target : BitVec 26)
  | jal (target : BitVec 26)
  | jr (rs : Reg)
  deriving DecidableEq, Repr

/-- The mnemonics written `op $rd, $rs, $rt` (R60). -/
inductive RegOp where
  | add | sub | and | or | xor | nor | slt
  deriving DecidableEq, Repr

/-- The mnemonics written `op $rd, $rt, sa` (R60). -/
inductive ShiftOp where
  | sll | srl | sra
  deriving DecidableEq, Repr

/-- The mnemonics written `op $rt, $rs, imm` (R60). -/
inductive ImmOp where
  | addi | andi | ori | xori | slti
  deriving DecidableEq, Repr

/-- The mnemonics written `op $rs, $rt, off` (R60). -/
inductive BranchOp where
  | beq | bne
  deriving DecidableEq, Repr

/-- The mnemonics written `op $rt, imm($rs)` (R60). -/
inductive MemOp where
  | lw | sw
  deriving DecidableEq, Repr

/-- The mnemonics written `op target` (R60). -/
inductive JumpOp where
  | j | jal
  deriving DecidableEq, Repr

/-- A line of assembly as a programmer writes it (R60), with plain numbers whose ranges
`Asm.wf` checks, and the one pseudo-instruction (R61). -/
inductive Asm where
  | reg (op : RegOp) (rd rs rt : Nat)
  | shift (op : ShiftOp) (rd rt sa : Nat)
  | jr (rs : Nat)
  | imm (op : ImmOp) (rt rs : Nat) (imm : Int)
  | branch (op : BranchOp) (rs rt : Nat) (off : Int)
  | mem (op : MemOp) (rt : Nat) (imm : Int) (rs : Nat)
  | jump (op : JumpOp) (target : Nat)
  | nop
  deriving DecidableEq, Repr

end Sys2Proof
end

