-- ==== Sys2Proof/WellFormed.lean ====
section
/-! DEFINITION. What is well formed: the parameters (00_scope.md R10, 30_encoding.md R57), a word as an
instruction (R58), and a line of assembly (R60). A term of `Instr` needs no check of its own: its operand
types hold exactly the values its fields can hold, so every term is a well-formed instruction. -/

namespace Sys2Proof

/-- The eleven funct values of a `FUNCT_MAP`. -/
def FunctMap.values (fm : FunctMap) : List (BitVec 6) :=
  [fm.sll, fm.srl, fm.sra, fm.jr, fm.add, fm.sub, fm.and, fm.or, fm.xor, fm.nor, fm.slt]

/-- R57: the map must be injective, with `sll` fixed at 0x00. -/
def FunctMap.wf (fm : FunctMap) : Bool :=
  decide (fm.sll = 0x00#6) && decide fm.values.Nodup

/-- R10: `4 <= MEM_SIZE <= 2^32`; R57 for the map. -/
def Params.wf (p : Params) : Bool :=
  decide (4 ≤ p.memSize) && decide (p.memSize ≤ 2 ^ 32) && p.functMap.wf

/-- The eleven non-zero opcodes of R56, in its order. -/
def primaryOpcodes : List (BitVec 6) :=
  [0x02, 0x03, 0x04, 0x05, 0x08, 0x0A, 0x0C, 0x0D, 0x0E, 0x23, 0x2B]

/-- R58: an encoding is an instruction exactly when its opcode is one of the eleven non-zero opcodes,
or its opcode is 0x00 and its funct is one of the eleven values of `FUNCT_MAP`. -/
def definedWord (fm : FunctMap) (w : Word) : Bool :=
  decide (w.extractLsb' 26 6 ∈ primaryOpcodes) ||
    (decide (w.extractLsb' 26 6 = 0x00#6) && decide (w.extractLsb' 0 6 ∈ fm.values))

/-- A register index of R60: `$0` to `$31`. -/
def wfReg (n : Nat) : Bool := decide (n < 32)

/-- An immediate of R60: a 16-bit field value, or a negative number that has a 16-bit pattern. -/
def wfImm (v : Int) : Bool := decide (-32768 ≤ v) && decide (v ≤ 65535)

/-- A branch operand of R60: a signed byte offset of 16 bits. -/
def wfOffset (v : Int) : Bool := decide (-32768 ≤ v) && decide (v ≤ 32767)

/-- The ranges of R60 for each form. -/
def Asm.wf : Asm → Bool
  | .reg _ rd rs rt => wfReg rd && wfReg rs && wfReg rt
  | .shift _ rd rt sa => wfReg rd && wfReg rt && decide (sa < 32)
  | .jr rs => wfReg rs
  | .imm _ rt rs v => wfReg rt && wfReg rs && wfImm v
  | .branch _ rs rt off => wfReg rs && wfReg rt && wfOffset off
  | .mem _ rt v rs => wfReg rt && wfReg rs && wfImm v
  | .jump _ target => decide (target < 2 ^ 26)
  | .nop => true

end Sys2Proof
end

