-- ==== Sys2Proof/Decode.lean ====
section
/-! DEFINITION. From bytes to instructions and back (30_encoding.md): the byte order of a word, the fields,
the decoder with its dispatch on opcode and funct (40_cycle.md R66 to R68), the encoder, the opcode table's
rows, and the assembler of R60 and R61. -/

namespace Sys2Proof

/-- The default `FUNCT_MAP` (R57): `sll` is the source's; the other ten are the MIPS values.
PRESUMED by the spec itself, from general knowledge: log entry 2. -/
def Config.defaultFunctMap : FunctMap :=
  { sll := 0x00, srl := 0x02, sra := 0x03, jr := 0x08, add := 0x20, sub := 0x22,
    and := 0x24, or := 0x25, xor := 0x26, nor := 0x27, slt := 0x2A }

/-- 20_memory.md R35, R37: the word whose bytes are `b0 b1 b2 b3` at increasing addresses. -/
def wordOfBytes (b0 b1 b2 b3 : Byte) : Word := b3 ++ b2 ++ b1 ++ b0

/-- 20_memory.md R36: the byte of `w` that lies `i` bytes above the word's address. -/
def wordByte (w : Word) (i : Nat) : Byte := w.extractLsb' (8 * i) 8

/-- The four bytes of a word in the order of memory (R37). -/
def bytesOfWord (w : Word) : List Byte := [wordByte w 0, wordByte w 1, wordByte w 2, wordByte w 3]

/-- The fields of R48. -/
structure Fields where
  opcode : BitVec 6
  rs : Reg
  rt : Reg
  rd : Reg
  sa : BitVec 5
  funct : BitVec 6
  imm : BitVec 16
  target : BitVec 26
  deriving DecidableEq, Repr

/-- R48: the decoder extracts every field from every word, whatever the opcode. -/
def fieldsOf (w : Word) : Fields :=
  { opcode := w.extractLsb' 26 6
    rs := w.extractLsb' 21 5
    rt := w.extractLsb' 16 5
    rd := w.extractLsb' 11 5
    sa := w.extractLsb' 6 5
    funct := w.extractLsb' 0 6
    imm := w.extractLsb' 0 16
    target := w.extractLsb' 0 26 }

/-- Why a word or a byte string is no instruction (R58). -/
inductive DecodeReject where
  /-- The opcode is none of the twelve of R56. -/
  | undefinedOpcode (opcode : BitVec 6)
  /-- The opcode is 0x00 and the funct is none of the eleven of R57. -/
  | undefinedFunct (funct : BitVec 6)
  /-- Fewer than the four bytes every instruction has (R59). -/
  | tooShort
  deriving DecidableEq, Repr

/-- R68: the dispatch on `funct` under opcode 0x00. -/
def decodeFunct (fm : FunctMap) (f : Fields) : Except DecodeReject Instr :=
  if f.funct = fm.sll then .ok (.sll f.rd f.rt f.sa)
  else if f.funct = fm.srl then .ok (.srl f.rd f.rt f.sa)
  else if f.funct = fm.sra then .ok (.sra f.rd f.rt f.sa)
  else if f.funct = fm.jr then .ok (.jr f.rs)
  else if f.funct = fm.add then .ok (.add f.rd f.rs f.rt)
  else if f.funct = fm.sub then .ok (.sub f.rd f.rs f.rt)
  else if f.funct = fm.and then .ok (.and f.rd f.rs f.rt)
  else if f.funct = fm.or then .ok (.or f.rd f.rs f.rt)
  else if f.funct = fm.xor then .ok (.xor f.rd f.rs f.rt)
  else if f.funct = fm.nor then .ok (.nor f.rd f.rs f.rt)
  else if f.funct = fm.slt then .ok (.slt f.rd f.rs f.rt)
  else .error (.undefinedFunct f.funct)

/-- R67: the dispatch on `opcode`, with the values of R56. -/
def decodeFields (fm : FunctMap) (f : Fields) : Except DecodeReject Instr :=
  if f.opcode = 0x00 then decodeFunct fm f
  else if f.opcode = 0x02 then .ok (.j f.target)
  else if f.opcode = 0x03 then .ok (.jal f.target)
  else if f.opcode = 0x04 then .ok (.beq f.rs f.rt f.imm)
  else if f.opcode = 0x05 then .ok (.bne f.rs f.rt f.imm)
  else if f.opcode = 0x08 then .ok (.addi f.rt f.rs f.imm)
  else if f.opcode = 0x0A then .ok (.slti f.rt f.rs f.imm)
  else if f.opcode = 0x0C then .ok (.andi f.rt f.rs f.imm)
  else if f.opcode = 0x0D then .ok (.ori f.rt f.rs f.imm)
  else if f.opcode = 0x0E then .ok (.xori f.rt f.rs f.imm)
  else if f.opcode = 0x23 then .ok (.lw f.rt f.rs f.imm)
  else if f.opcode = 0x2B then .ok (.sw f.rt f.rs f.imm)
  else .error (.undefinedOpcode f.opcode)

/-- The instruction a word is, or why it is none (R47, R58). -/
def decode (fm : FunctMap) (w : Word) : Except DecodeReject Instr := decodeFields fm (fieldsOf w)

/-- The instruction at the head of a byte string in memory order, with the bytes after it (R37, R59). -/
def decodeBytes (fm : FunctMap) : List Byte → Except DecodeReject (Instr × List Byte)
  | b0 :: b1 :: b2 :: b3 :: rest =>
    match decode fm (wordOfBytes b0 b1 b2 b3) with
    | .ok i => .ok (i, rest)
    | .error e => .error e
  | _ => .error .tooShort

/-- R49: an R-type word. -/
def encodeR (rs rt rd : Reg) (sa : BitVec 5) (funct : BitVec 6) : Word :=
  0x00#6 ++ rs ++ rt ++ rd ++ sa ++ funct

/-- R50: an I-type word. -/
def encodeI (opcode : BitVec 6) (rs rt : Reg) (imm : BitVec 16) : Word :=
  opcode ++ rs ++ rt ++ imm

/-- R51: a J-type word. -/
def encodeJ (opcode : BitVec 6) (target : BitVec 26) : Word := opcode ++ target

/-- The word of an instruction (R49 to R51, R56, R57), with 0 in every field it ignores (R55). -/
def encode (fm : FunctMap) : Instr → Word
  | .add rd rs rt => encodeR rs rt rd 0 fm.add
  | .sub rd rs rt => encodeR rs rt rd 0 fm.sub
  | .and rd rs rt => encodeR rs rt rd 0 fm.and
  | .or rd rs rt => encodeR rs rt rd 0 fm.or
  | .xor rd rs rt => encodeR rs rt rd 0 fm.xor
  | .nor rd rs rt => encodeR rs rt rd 0 fm.nor
  | .slt rd rs rt => encodeR rs rt rd 0 fm.slt
  | .sll rd rt sa => encodeR 0 rt rd sa fm.sll
  | .srl rd rt sa => encodeR 0 rt rd sa fm.srl
  | .sra rd rt sa => encodeR 0 rt rd sa fm.sra
  | .addi rt rs imm => encodeI 0x08 rs rt imm
  | .andi rt rs imm => encodeI 0x0C rs rt imm
  | .ori rt rs imm => encodeI 0x0D rs rt imm
  | .xori rt rs imm => encodeI 0x0E rs rt imm
  | .slti rt rs imm => encodeI 0x0A rs rt imm
  | .lw rt rs imm => encodeI 0x23 rs rt imm
  | .sw rt rs imm => encodeI 0x2B rs rt imm
  | .beq rs rt imm => encodeI 0x04 rs rt imm
  | .bne rs rt imm => encodeI 0x05 rs rt imm
  | .j target => encodeJ 0x02 target
  | .jal target => encodeJ 0x03 target
  | .jr rs => encodeR rs 0 0 0 fm.jr

/-- R55: the bits of a word that its instruction uses; the others are ignored, whatever they hold. -/
def usedMask : Instr → Word
  | .add _ _ _ | .sub _ _ _ | .and _ _ _ | .or _ _ _ | .xor _ _ _ | .nor _ _ _ | .slt _ _ _ => 0xFFFFF83F
  | .sll _ _ _ | .srl _ _ _ | .sra _ _ _ => 0xFC1FFFFF
  | .jr _ => 0xFFE0003F
  | .addi _ _ _ | .andi _ _ _ | .ori _ _ _ | .xori _ _ _ | .slti _ _ _ => 0xFFFFFFFF
  | .lw _ _ _ | .sw _ _ _ | .beq _ _ _ | .bne _ _ _ | .j _ | .jal _ => 0xFFFFFFFF

/-- The mnemonic of an instruction as spec/opcode_table.json spells it. -/
def Instr.mnemonic : Instr → String
  | .add _ _ _ => "add"
  | .sub _ _ _ => "sub"
  | .and _ _ _ => "and"
  | .or _ _ _ => "or"
  | .xor _ _ _ => "xor"
  | .nor _ _ _ => "nor"
  | .slt _ _ _ => "slt"
  | .sll _ _ _ => "sll"
  | .srl _ _ _ => "srl"
  | .sra _ _ _ => "sra"
  | .addi _ _ _ => "addi"
  | .andi _ _ _ => "andi"
  | .ori _ _ _ => "ori"
  | .xori _ _ _ => "xori"
  | .slti _ _ _ => "slti"
  | .lw _ _ _ => "lw"
  | .sw _ _ _ => "sw"
  | .beq _ _ _ => "beq"
  | .bne _ _ _ => "bne"
  | .j _ => "j"
  | .jal _ => "jal"
  | .jr _ => "jr"

/-- A row of spec/opcode_table.json: a word is the row's when its bits under the mask are the pattern. -/
structure TableRow where
  mnemonic : String
  pattern : Word
  mask : Word
  deriving DecidableEq, Repr

/-- The match and mask columns of spec/opcode_table.json, in its order. The decoder does not read it. -/
def opcodeTable : List TableRow :=
  [⟨"add", 0x00000020, 0xFC00003F⟩, ⟨"sub", 0x00000022, 0xFC00003F⟩, ⟨"and", 0x00000024, 0xFC00003F⟩,
   ⟨"or", 0x00000025, 0xFC00003F⟩, ⟨"xor", 0x00000026, 0xFC00003F⟩, ⟨"nor", 0x00000027, 0xFC00003F⟩,
   ⟨"slt", 0x0000002A, 0xFC00003F⟩, ⟨"sll", 0x00000000, 0xFC00003F⟩, ⟨"srl", 0x00000002, 0xFC00003F⟩,
   ⟨"sra", 0x00000003, 0xFC00003F⟩, ⟨"addi", 0x20000000, 0xFC000000⟩, ⟨"andi", 0x30000000, 0xFC000000⟩,
   ⟨"ori", 0x34000000, 0xFC000000⟩, ⟨"xori", 0x38000000, 0xFC000000⟩, ⟨"slti", 0x28000000, 0xFC000000⟩,
   ⟨"lw", 0x8C000000, 0xFC000000⟩, ⟨"sw", 0xAC000000, 0xFC000000⟩, ⟨"beq", 0x10000000, 0xFC000000⟩,
   ⟨"bne", 0x14000000, 0xFC000000⟩, ⟨"j", 0x08000000, 0xFC000000⟩, ⟨"jal", 0x0C000000, 0xFC000000⟩,
   ⟨"jr", 0x00000008, 0xFC00003F⟩]

/-- Whether a word is the row's. -/
def TableRow.matches (r : TableRow) (w : Word) : Bool := decide (w &&& r.mask = r.pattern)

/-- The instruction of a line of assembly, each operand in the field R60 gives it. -/
def Asm.instr : Asm → Instr
  | .reg op rd rs rt =>
    let rd := BitVec.ofNat 5 rd
    let rs := BitVec.ofNat 5 rs
    let rt := BitVec.ofNat 5 rt
    match op with
    | .add => .add rd rs rt
    | .sub => .sub rd rs rt
    | .and => .and rd rs rt
    | .or => .or rd rs rt
    | .xor => .xor rd rs rt
    | .nor => .nor rd rs rt
    | .slt => .slt rd rs rt
  | .shift op rd rt sa =>
    let rd := BitVec.ofNat 5 rd
    let rt := BitVec.ofNat 5 rt
    let sa := BitVec.ofNat 5 sa
    match op with
    | .sll => .sll rd rt sa
    | .srl => .srl rd rt sa
    | .sra => .sra rd rt sa
  | .jr rs => .jr (BitVec.ofNat 5 rs)
  | .imm op rt rs v =>
    let rt := BitVec.ofNat 5 rt
    let rs := BitVec.ofNat 5 rs
    let v := BitVec.ofInt 16 v
    match op with
    | .addi => .addi rt rs v
    | .andi => .andi rt rs v
    | .ori => .ori rt rs v
    | .xori => .xori rt rs v
    | .slti => .slti rt rs v
  | .branch op rs rt off =>
    let rs := BitVec.ofNat 5 rs
    let rt := BitVec.ofNat 5 rt
    let off := BitVec.ofInt 16 off
    match op with
    | .beq => .beq rs rt off
    | .bne => .bne rs rt off
  | .mem op rt v rs =>
    let rt := BitVec.ofNat 5 rt
    let rs := BitVec.ofNat 5 rs
    let v := BitVec.ofInt 16 v
    match op with
    | .lw => .lw rt rs v
    | .sw => .sw rt rs v
  | .jump op target =>
    match op with
    | .j => .j (BitVec.ofNat 26 target)
    | .jal => .jal (BitVec.ofNat 26 target)
  | .nop => .sll 0 0 0

/-- R60, R61: the word of a line of assembly whose operands are in range. -/
def assemble (fm : FunctMap) (a : Asm) : Option Word :=
  if a.wf then some (encode fm a.instr) else none

/-- R60: a register as it is written. -/
def regText (n : Nat) : String := "$" ++ toString n

/-- R60: the line of assembly as it is written. The mnemonic is that of its instruction, but for R61's. -/
def Asm.text (a : Asm) : String :=
  match a with
  | .reg _ rd rs rt => a.instr.mnemonic ++ " " ++ regText rd ++ ", " ++ regText rs ++ ", " ++ regText rt
  | .shift _ rd rt sa => a.instr.mnemonic ++ " " ++ regText rd ++ ", " ++ regText rt ++ ", " ++ toString sa
  | .jr rs => a.instr.mnemonic ++ " " ++ regText rs
  | .imm _ rt rs v => a.instr.mnemonic ++ " " ++ regText rt ++ ", " ++ regText rs ++ ", " ++ toString v
  | .branch _ rs rt off => a.instr.mnemonic ++ " " ++ regText rs ++ ", " ++ regText rt ++ ", " ++ toString off
  | .mem _ rt v rs => a.instr.mnemonic ++ " " ++ regText rt ++ ", " ++ toString v ++ "(" ++ regText rs ++ ")"
  | .jump _ target => a.instr.mnemonic ++ " " ++ toString target
  | .nop => "nop"

/-- The instruction the decoder reads from a table row's word: `nbits` bits of `w`, the rest zero, laid
out as memory holds them (R37). No instruction is longer than 32 bits (R59). -/
def decodeTableWord (nbits w : Nat) : Option Instr :=
  match decodeBytes Config.defaultFunctMap (bytesOfWord (BitVec.ofNat 32 (w % 2 ^ nbits))) with
  | .ok (i, _) => some i
  | .error _ => none

end Sys2Proof
end

