-- ==== Sys2Proof/Machine/State.lean ====
section
/-! DEFINITION. The state of the machine (10_state.md), its reset value (R31), and the reasons a step
can stop. -/

namespace Sys2Proof.Machine

/-- What a bounds check was made for (60_exceptions.md R101). -/
inductive Access where
  | fetch
  | load
  | store
  deriving DecidableEq, Repr

/-- The kind and the record of FATAL (R100, R101). -/
inductive FatalInfo where
  /-- R100: the fetched word is not an instruction. -/
  | decodeFatal (ipc word : Word) (opcode funct : BitVec 6)
  /-- R101: a word access out of bounds. -/
  | memoryBoundsFatal (acc : Access) (addr ipc : Word)
  deriving DecidableEq, Repr

/-- The engine's run status (R27). -/
inductive Status where
  | running
  | fatal (info : FatalInfo)
  deriving DecidableEq, Repr

/-- Memory in its canonical form: addresses strictly rising, no entry holding 0, which is what an
unlisted address reads as (R28: memory is zero-initialized). -/
abbrev Memory := List Host.Cell

/-- The complete state of the block: `(x[0..31], LR, pc, mem, status)` (head of 10_state.md). -/
structure State where
  /-- The general registers (R18). Register 0 is an ordinary one (R19). -/
  x : Vector Word 32
  /-- The link register (R21). -/
  lr : Word
  /-- The program counter (R22). -/
  pc : Word
  /-- The memory (R28). -/
  mem : Memory
  /-- The run status (R27). -/
  status : Status
  deriving DecidableEq, Repr

/-- Why a step does not exist. -/
inductive Fault where
  /-- Raised by `step` from a state whose status is FATAL: the engine has no step there (R63, R99).
  Safe: the spec says so, and the state stays as FATAL left it. -/
  | engineInFatal (info : FatalInfo)
  deriving DecidableEq, Repr

/-- Why an instruction has no meaning. -/
inductive Refusal where
  /-- Raised by an arm of `exec` whose instruction has no meaning yet; no arm does so now.
  Safe: nothing is claimed of such an instruction. -/
  | notModelled (mnemonic : String)
  deriving DecidableEq, Repr

/-- R31, R115: the state after reset with the empty image. Every register, LR and pc is 0 (pc by R22, R117:
log entry 5), every byte of memory is 0, the status is Running. A program is loaded by `hostReset`. -/
def State.reset : State :=
  { x := Vector.replicate 32 0, lr := 0, pc := 0, mem := [], status := .running }

end Sys2Proof.Machine
end

