-- ==== Sys2Proof/Machine/Ops.lean ====
section
/-! DEFINITION. The named operations over memory and registers (20_memory.md, 10_state.md), and entering
FATAL (60_exceptions.md R99). There is no return from FATAL (R105): only reset leaves it. -/

namespace Sys2Proof.Machine

/-- What one step of this machine answers. -/
abbrev Answer := Host.Outcome State Fault Refusal

/-- The byte at address `a` (R28): an unlisted address holds 0. -/
def Memory.read : Memory → Nat → Byte
  | [], _ => 0
  | (k, b) :: m, a => if k = a then b else Memory.read m a

/-- A cell put in front of memory, unless it holds what an unlisted address reads as. -/
def Memory.consCell (a : Nat) (v : Byte) (m : Memory) : Memory := if v = 0 then m else (a, v) :: m

/-- Memory with the byte at `a` set to `v`, in canonical form. -/
def Memory.put : Memory → Nat → Byte → Memory
  | [], a, v => Memory.consCell a v []
  | (k, b) :: m, a, v =>
    if a < k then Memory.consCell a v ((k, b) :: m)
    else if a = k then Memory.consCell a v m
    else (k, b) :: Memory.put m a v

/-- The canonical form of the part of memory that starts at address `lo`. -/
def Memory.wfFrom : Nat → Memory → Bool
  | _, [] => true
  | lo, (k, b) :: m => decide (lo ≤ k) && decide (b ≠ 0) && Memory.wfFrom (k + 1) m

/-- The canonical form: addresses strictly rising, no entry holding 0. -/
def Memory.wf (m : Memory) : Bool := Memory.wfFrom 0 m

/-- Every listed address is one of memory's, 0 to `size - 1` (R33). -/
def Memory.within (size : Nat) (m : Memory) : Bool := m.all fun c => decide (c.1 < size)

/-- R34: `⟦unsigned(a) + 3⟧ <= MEM_SIZE - 1`, the sum taken on unbounded integers (R16). -/
def inBounds (size : Nat) (a : Word) : Bool := decide (a.toNat + 3 ≤ size - 1)

/-- The four bytes from address `a` up, as a little-endian word (R35, R37). -/
def Memory.wordAt (m : Memory) (a : Nat) : Word :=
  wordOfBytes (m.read a) (m.read (a + 1)) (m.read (a + 2)) (m.read (a + 3))

/-- The four bytes of `v` put at address `a` and up (R36). -/
def Memory.putWord (m : Memory) (a : Nat) (v : Word) : Memory :=
  (((m.put a (wordByte v 0)).put (a + 1) (wordByte v 1)).put (a + 2) (wordByte v 2)).put (a + 3) (wordByte v 3)

/-- R35: `MemRead(a, 4)`; none where it raises MemoryBoundsFatal. -/
def memRead (size : Nat) (m : Memory) (a : Word) : Option Word :=
  if inBounds size a then some (m.wordAt a.toNat) else none

/-- R36: `MemWrite(a, 4, v)`; none where it raises MemoryBoundsFatal, and then no byte is written (R42). -/
def memWrite (size : Nat) (m : Memory) (a : Word) (v : Word) : Option Memory :=
  if inBounds size a then some (m.putWord a.toNat v) else none

/-- R116: the image's bytes from address `at` up, in canonical form. -/
def Memory.ofImage : Nat → List Byte → Memory
  | _, [] => []
  | a, b :: bs => Memory.consCell a b (Memory.ofImage (a + 1) bs)

/-- `x[r]` (R14). No register index is special (R19). -/
def State.reg (s : State) (r : Reg) : Word := s.x[r.toNat]'r.isLt

/-- `x[r] <- v` (R14). No register index is special (R19). -/
def State.setReg (s : State) (r : Reg) (v : Word) : State := { s with x := s.x.set r.toNat v r.isLt }

/-- `pc <- target` (R14). -/
def State.setPc (s : State) (target : Word) : State := { s with pc := target }

/-- `LR <- v` (R14). -/
def State.setLr (s : State) (v : Word) : State := { s with lr := v }

/-- The state with its memory replaced. -/
def State.setMem (s : State) (m : Memory) : State := { s with mem := m }

/-- 40_cycle.md R65: the fetch advance, modulo 2^32 (R24). -/
def State.advance (s : State) : State := s.setPc (s.pc + 4)

/-- The address of the instruction being executed, from the advanced PC its body reads (R70, R101). -/
def State.ipc (s : State) : Word := s.pc - 4

/-- R99: entering FATAL sets the status and changes nothing else. -/
def State.raise (s : State) (info : FatalInfo) : State := { s with status := .fatal info }

/-- R64, R101: the fetch bounds fault; `pc` is not advanced and is both the address and `ipc`. -/
def State.raiseFetch (s : State) : State := s.raise (.memoryBoundsFatal .fetch s.pc s.pc)

/-- R100: DecodeFatal for the word `w`, raised after the fetch advance. -/
def State.raiseDecode (s : State) (w : Word) : State :=
  s.raise (.decodeFatal s.ipc w (fieldsOf w).opcode (fieldsOf w).funct)

/-- R101: the bounds fault of a load or store at address `a`, raised after the fetch advance. -/
def State.raiseAccess (s : State) (acc : Access) (a : Word) : State :=
  s.raise (.memoryBoundsFatal acc a s.ipc)

/-- R64: the instruction word at `pc`; none where the fetch is out of bounds. -/
def fetch (p : Params) (s : State) : Option Word := memRead p.memSize s.mem s.pc

/-- The instruction's result goes to register `r`; `pc` stays the advanced PC (R69). -/
def writeBack (r : Reg) (v : Word) (s : State) : Answer := .next (s.setReg r v)

end Sys2Proof.Machine
end

