-- ==== Sys2Proof/Machine/Cycle.lean ====
section
/-! DEFINITION. One cycle of the engine (40_cycle.md R70), over the parameters and an execute part: fetch,
advance, decode and dispatch, execute. Step.lean runs it with the hardware's parameters and `exec`. -/

namespace Sys2Proof.Machine

/-- R67, R68, R100: the word's instruction is executed; a word that is none raises DecodeFatal. The state is the
one after the fetch advance. -/
def dispatch (p : Params) (ex : Instr → State → Answer) (w : Word) (s : State) : Answer :=
  match decode p.functMap w with
  | .ok i => ex i s
  | .error _ => .next (s.raiseDecode w)

/-- R70: one cycle of a running engine. -/
def cycle (p : Params) (ex : Instr → State → Answer) (s : State) : Answer :=
  match fetch p s with
  | some w => dispatch p ex w s.advance
  | none => .next s.raiseFetch

/-- R63, R99: a step is defined only while the status is Running. -/
def stepWith (p : Params) (ex : Instr → State → Answer) (s : State) : Answer :=
  match s.status with
  | .running => cycle p ex s
  | .fatal info => .fault (.engineInFatal info)

/-- The state with a word's bytes stored where the next fetch reads them, and the engine Running, which a
fetch needs. Where `pc` is out of bounds no byte can be stored. It stands for the host's image load (R116). -/
def placeWord (p : Params) (s : State) (w : Word) : State :=
  match memWrite p.memSize s.mem s.pc w with
  | some m => { s with mem := m, status := .running }
  | none => s

end Sys2Proof.Machine
end

