-- ==== Sys2Proof/Machine/Flags.lean ====
section
/-! DEFINITION. Comparisons. The block has no flags or condition codes (10_state.md R25): `slt` and `slti`
write 0 or 1 into a general register, and the branches compare two registers directly. -/

namespace Sys2Proof.Machine

/-- The 32-bit value 0x00000001 or 0x00000000 of a comparison (R79, R87). -/
def flagWord (b : Bool) : Word := if b then 1 else 0

/-- `signed(a) < signed(b)` (R14, R79). -/
def lessSigned (a b : Word) : Bool := decide (a.toInt < b.toInt)

/-- The comparison of `beq`, whose negation is that of `bne` (R91, R92). -/
def sameWord (a b : Word) : Bool := decide (a = b)

end Sys2Proof.Machine
end

