-- ==== Sys2Proof/Machine/Operands.lean ====
section
/-! DEFINITION. The operand forms: the extensions of an immediate (30_encoding.md R52), branch and jump
targets (R53, R54), the effective address (44_load_store.md R88), and the shifts (R14, R82). -/

namespace Sys2Proof.Machine

/-- `sext_32(imm)` (R14). -/
def sext32 (imm : BitVec 16) : Word := imm.signExtend 32

/-- `zext_32(imm)` (R14). -/
def zext32 (imm : BitVec 16) : Word := imm.setWidth 32

/-- R53: `pc_adv + sext_32(imm)`, a byte offset, not scaled, modulo 2^32. -/
def branchTarget (pcAdv : Word) (imm : BitVec 16) : Word := pcAdv + sext32 imm

/-- R54: `(pc_adv & 0xF0000000) | (zext_32(target) << 2)`. -/
def jumpTarget (pcAdv : Word) (target : BitVec 26) : Word :=
  (pcAdv &&& 0xF0000000) ||| (target.setWidth 32 <<< 2)

/-- R88: `ea_int`, the unbounded sum. -/
def eaInt (base : Word) (imm : BitVec 16) : Int := (base.toNat : Int) + (sext32 imm).toInt

/-- R88: whether the unbounded sum is an address, 0 to 2^32 - 1. -/
def eaFits (base : Word) (imm : BitVec 16) : Bool :=
  decide (0 ≤ eaInt base imm) && decide (eaInt base imm < 2 ^ 32)

/-- R88: `ea_int mod 2^32`. -/
def eaWord (base : Word) (imm : BitVec 16) : Word := BitVec.ofInt 32 (eaInt base imm)

/-- R88: whether `EA_WRAP` lets the access be made at `eaWord`, or raises MemoryBoundsFatal for it. -/
def eaAllowed (mode : EaWrap) (base : Word) (imm : BitVec 16) : Bool :=
  match mode with
  | .wrap => true
  | .fatal => eaFits base imm

/-- `a << n` (R14). -/
def shiftLeft (a : Word) (n : BitVec 5) : Word := a <<< n.toNat

/-- `a >>u n` (R14). -/
def shiftRightZero (a : Word) (n : BitVec 5) : Word := a >>> n.toNat

/-- `a >>s n` (R14). -/
def shiftRightSign (a : Word) (n : BitVec 5) : Word := a.sshiftRight n.toNat

/-- R82: the shift of `sra` under `SRA_MODE`. -/
def shiftRightArith (mode : SraMode) (a : Word) (n : BitVec 5) : Word :=
  match mode with
  | .arithmetic => shiftRightSign a n
  | .logical => shiftRightZero a n

end Sys2Proof.Machine
end

