-- ==== Sys2Proof/Machine/AluImmediate.lean ====
section
/-! DEFINITION. The immediate ALU instructions (43_alu_immediate.md). Each reads `x[rs]` before it writes
`x[rt]`, writes nothing else and raises nothing. -/

namespace Sys2Proof.Machine

/-- R83: add immediate, wrapping. -/
def execAddi (rt rs : Reg) (imm : BitVec 16) (s : State) : Answer := writeBack rt (s.reg rs + sext32 imm) s

/-- R84: and immediate. -/
def execAndi (rt rs : Reg) (imm : BitVec 16) (s : State) : Answer := writeBack rt (s.reg rs &&& zext32 imm) s

/-- R85: or immediate. -/
def execOri (rt rs : Reg) (imm : BitVec 16) (s : State) : Answer := writeBack rt (s.reg rs ||| zext32 imm) s

/-- R86: exclusive or immediate. -/
def execXori (rt rs : Reg) (imm : BitVec 16) (s : State) : Answer := writeBack rt (s.reg rs ^^^ zext32 imm) s

/-- R87: set on less than immediate, signed. -/
def execSlti (rt rs : Reg) (imm : BitVec 16) (s : State) : Answer :=
  writeBack rt (flagWord (lessSigned (s.reg rs) (sext32 imm))) s

end Sys2Proof.Machine
end

