-- ==== Sys2Proof/Machine/AluRegister.lean ====
section
/-! DEFINITION. The register-register ALU instructions (41_alu_register.md). Each reads `x[rs]` and `x[rt]`
before it writes `x[rd]` (R15), writes nothing else and raises nothing. -/

namespace Sys2Proof.Machine

/-- R73: add, wrapping. -/
def execAdd (rd rs rt : Reg) (s : State) : Answer := writeBack rd (s.reg rs + s.reg rt) s

/-- R74: subtract, wrapping. -/
def execSub (rd rs rt : Reg) (s : State) : Answer := writeBack rd (s.reg rs - s.reg rt) s

/-- R75: bitwise and. -/
def execAnd (rd rs rt : Reg) (s : State) : Answer := writeBack rd (s.reg rs &&& s.reg rt) s

/-- R76: bitwise or. -/
def execOr (rd rs rt : Reg) (s : State) : Answer := writeBack rd (s.reg rs ||| s.reg rt) s

/-- R77: bitwise exclusive or. -/
def execXor (rd rs rt : Reg) (s : State) : Answer := writeBack rd (s.reg rs ^^^ s.reg rt) s

/-- R78: bitwise not-or. -/
def execNor (rd rs rt : Reg) (s : State) : Answer := writeBack rd (~~~(s.reg rs ||| s.reg rt)) s

/-- R79: set on less than, signed. -/
def execSlt (rd rs rt : Reg) (s : State) : Answer :=
  writeBack rd (flagWord (lessSigned (s.reg rs) (s.reg rt))) s

end Sys2Proof.Machine
end

