-- ==== Sys2Proof/Machine/ControlTransfer.lean ====
section
/-! DEFINITION. Branches and jumps (45_control_transfer.md). `pc` is read as the advanced PC (R65, R70). The
new `pc` takes effect at the next fetch: there is no delay slot (R96). Nothing is raised: a bad target is
found only by the next fetch (R97). -/

namespace Sys2Proof.Machine

/-- R69: when `taken`, `pc` becomes the branch target; else it stays the advanced PC. -/
def branchIf (taken : Bool) (imm : BitVec 16) (s : State) : Answer :=
  if taken then .next (s.setPc (branchTarget s.pc imm)) else .next s

/-- R91: branch if equal. -/
def execBeq (rs rt : Reg) (imm : BitVec 16) (s : State) : Answer := branchIf (sameWord (s.reg rs) (s.reg rt)) imm s

/-- R92: branch if not equal. -/
def execBne (rs rt : Reg) (imm : BitVec 16) (s : State) : Answer := branchIf (!sameWord (s.reg rs) (s.reg rt)) imm s

/-- R93: jump. -/
def execJ (target : BitVec 26) (s : State) : Answer := .next (s.setPc (jumpTarget s.pc target))

/-- R94: jump and link; `LR` gets the advanced PC, no general register is written. -/
def execJal (target : BitVec 26) (s : State) : Answer :=
  .next ((s.setLr s.pc).setPc (jumpTarget s.pc target))

/-- R95: jump register; nothing is added, `LR` is not read. -/
def execJr (rs : Reg) (s : State) : Answer := .next (s.setPc (s.reg rs))

end Sys2Proof.Machine
end

