-- ==== Sys2Proof/Machine/Defaults.lean ====
section
/-! DEFINITION. The default values of the parameters, which are the values of this hardware
(00_scope.md R10, R11). -/

namespace Sys2Proof

/-- `MEM_SIZE`, 1 MiB (R10). UNVERIFIED: the literal is unaudited, log entry 1. -/
def Config.memSize : Nat := 0x00100000

/-- `SRA_MODE` (42_shift.md R82). UNVERIFIED against the original code, log entry 3. -/
def Config.sraMode : SraMode := .arithmetic

/-- `EA_WRAP` (44_load_store.md R88). UNVERIFIED, log entry 4. -/
def Config.eaWrap : EaWrap := .wrap

/-- The parameters of this hardware. -/
def Config.params : Params :=
  { memSize := Config.memSize, sraMode := Config.sraMode, eaWrap := Config.eaWrap,
    functMap := Config.defaultFunctMap }

end Sys2Proof
end

