-- ==== Sys2Proof/Machine/LoadStore.lean ====
section
/-! DEFINITION. Load word and store word (44_load_store.md), under every `MEM_SIZE` and `EA_WRAP`, and with
the hardware's (log entries 1 and 4). -/

namespace Sys2Proof.Machine

/-- R88, R89, R103: the effective-address check, the bounds check, then the load; a fault writes no register. -/
def loadWord (p : Params) (rt rs : Reg) (imm : BitVec 16) (s : State) : Answer :=
  let ea := eaWord (s.reg rs) imm
  if eaAllowed p.eaWrap (s.reg rs) imm then
    match memRead p.memSize s.mem ea with
    | some v => writeBack rt v s
    | none => .next (s.raiseAccess .load ea)
  else .next (s.raiseAccess .load ea)

/-- R88, R90, R103: the effective-address check, the bounds check, then the store; a fault writes no byte. -/
def storeWord (p : Params) (rt rs : Reg) (imm : BitVec 16) (s : State) : Answer :=
  let ea := eaWord (s.reg rs) imm
  if eaAllowed p.eaWrap (s.reg rs) imm then
    match memWrite p.memSize s.mem ea (s.reg rt) with
    | some m => .next (s.setMem m)
    | none => .next (s.raiseAccess .store ea)
  else .next (s.raiseAccess .store ea)

/-- R89: load word. -/
def execLw (rt rs : Reg) (imm : BitVec 16) (s : State) : Answer := loadWord Config.params rt rs imm s

/-- R90: store word. -/
def execSw (rt rs : Reg) (imm : BitVec 16) (s : State) : Answer := storeWord Config.params rt rs imm s

end Sys2Proof.Machine
end

