-- ==== Sys2Proof/Machine/Shift.lean ====
section
/-! DEFINITION. The shift instructions (42_shift.md). Each reads `x[rt]` before it writes `x[rd]`, ignores
`rs`, writes nothing else and raises nothing. -/

namespace Sys2Proof.Machine

/-- R80: shift left logical. -/
def execSll (rd rt : Reg) (sa : BitVec 5) (s : State) : Answer := writeBack rd (shiftLeft (s.reg rt) sa) s

/-- R81: shift right logical. -/
def execSrl (rd rt : Reg) (sa : BitVec 5) (s : State) : Answer := writeBack rd (shiftRightZero (s.reg rt) sa) s

/-- R82: shift right arithmetic, under a `SRA_MODE`. -/
def sraUnder (mode : SraMode) (rd rt : Reg) (sa : BitVec 5) (s : State) : Answer :=
  writeBack rd (shiftRightArith mode (s.reg rt) sa) s

/-- R82: shift right arithmetic, in the hardware's `SRA_MODE` (log entry 3). -/
def execSra (rd rt : Reg) (sa : BitVec 5) (s : State) : Answer := sraUnder Config.params.sraMode rd rt sa s

end Sys2Proof.Machine
end

