-- ==== Sys2Proof/Machine/Step.lean ====
section
/-! DEFINITION. The step of this hardware (40_cycle.md R70), and the placing of an instruction where the next
step fetches it. -/

namespace Sys2Proof.Machine

/-- One step, with the hardware's parameters (00_scope.md R10, R11). -/
def step (s : State) : Host.Outcome State Fault Refusal := stepWith Config.params exec s

/-- `s` with the `nbits` low bits of `w`, the rest of the 32-bit word zero, stored at `pc` (log entry 7). -/
def State.withFetchWord (s : State) (nbits w : Nat) : State :=
  placeWord Config.params s (BitVec.ofNat 32 (w % 2 ^ nbits))

end Sys2Proof.Machine
end

