-- ==== Sys2Proof/Machine/HostPort.lean ====
section
/-! DEFINITION. What the host can do (60_exceptions.md R102, R106, R107; 70_reset_and_hazards.md R115, R116): reset with
an image, read the status output, observe the registers. -/

namespace Sys2Proof.Machine

/-- What the host gets from a reset. -/
inductive ResetAnswer where
  /-- The engine is Running in this state. -/
  | started (s : State)
  /-- R102: LoadFatal, the image is larger than memory; the engine does not start. -/
  | loadFatal
  deriving DecidableEq, Repr

/-- R115, R116: reset with an image, from any state, which it does not read. -/
def hostReset (size : Nat) (image : List Byte) (_ : State) : ResetAnswer :=
  if image.length ≤ size then .started { State.reset with mem := Memory.ofImage 0 image } else .loadFatal

/-- R106: the status output. -/
def statusOutput (s : State) : Status := s.status

/-- R107: what the register observation shows. -/
structure Observation where
  pc : Word
  lr : Word
  x : Vector Word 32
  deriving DecidableEq, Repr

/-- R107: the register observation, at any step boundary, also in FATAL. It changes no state. -/
def observe (s : State) : Observation := { pc := s.pc, lr := s.lr, x := s.x }

end Sys2Proof.Machine
end

