-- ==== Sys2Proof/Machine/Parametric.lean ====
section
/-! DEFINITION. The machine with its parameters as arguments (00_scope.md R10, R11): only `sra`, `lw`, `sw` and
the cycle read them. `exec` and `step` are its instance at the hardware's values (Laws/Parametric.lean). -/

namespace Sys2Proof.Machine

/-- The execute part under any parameters. -/
def execUnder (p : Params) (i : Instr) (s : State) : Answer :=
  match i with
  | .add rd rs rt => execAdd rd rs rt s
  | .sub rd rs rt => execSub rd rs rt s
  | .and rd rs rt => execAnd rd rs rt s
  | .or rd rs rt => execOr rd rs rt s
  | .xor rd rs rt => execXor rd rs rt s
  | .nor rd rs rt => execNor rd rs rt s
  | .slt rd rs rt => execSlt rd rs rt s
  | .sll rd rt sa => execSll rd rt sa s
  | .srl rd rt sa => execSrl rd rt sa s
  | .sra rd rt sa => sraUnder p.sraMode rd rt sa s
  | .addi rt rs imm => execAddi rt rs imm s
  | .andi rt rs imm => execAndi rt rs imm s
  | .ori rt rs imm => execOri rt rs imm s
  | .xori rt rs imm => execXori rt rs imm s
  | .slti rt rs imm => execSlti rt rs imm s
  | .lw rt rs imm => loadWord p rt rs imm s
  | .sw rt rs imm => storeWord p rt rs imm s
  | .beq rs rt imm => execBeq rs rt imm s
  | .bne rs rt imm => execBne rs rt imm s
  | .j target => execJ target s
  | .jal target => execJal target s
  | .jr rs => execJr rs s

/-- R70: one step under any parameters. -/
def stepUnder (p : Params) (s : State) : Answer := stepWith p (execUnder p) s

end Sys2Proof.Machine
end

