-- ==== Sys2Proof/Safety.lean ====
section
/-! DEFINITION. The terms claims are stated in: frames, which register an instruction writes, the renaming of
registers, what a line of assembly assembles to, and the invariant of a run. A run is safe as long as its status is
Running; FATAL is entered as 60_exceptions.md R99 says and left only by reset. -/

namespace Sys2Proof.Machine

/-- Every general register reads as before. -/
def SameRegs (s t : State) : Prop := ∀ r, t.reg r = s.reg r

/-- Every byte of memory reads as before. -/
def SameMemory (s t : State) : Prop := ∀ a, t.mem.read a = s.mem.read a

/-- The frame of an instruction that only writes the general register `r`. `pc` stays the advanced PC. -/
structure OnlyRegWritten (r : Reg) (s t : State) : Prop where
  regs : ∀ q, q ≠ r → t.reg q = s.reg q
  lr : t.lr = s.lr
  pc : t.pc = s.pc
  status : t.status = s.status
  mem : SameMemory s t

/-- The frame of an instruction that only sets `pc`. -/
structure OnlyPcWritten (s t : State) : Prop where
  regs : SameRegs s t
  lr : t.lr = s.lr
  status : t.status = s.status
  mem : SameMemory s t

/-- R99: FATAL entered with this record, from the state at the raise, and nothing else changed. -/
structure EnteredFatal (info : FatalInfo) (s t : State) : Prop where
  status : t.status = .fatal info
  regs : SameRegs s t
  lr : t.lr = s.lr
  pc : t.pc = s.pc
  mem : SameMemory s t

/-- The general register an instruction writes, if any (10_state.md R31). -/
def destination : Instr → Option Reg
  | .add rd _ _ | .sub rd _ _ | .and rd _ _ | .or rd _ _ | .xor rd _ _ | .nor rd _ _ | .slt rd _ _ => some rd
  | .sll rd _ _ | .srl rd _ _ | .sra rd _ _ => some rd
  | .addi rt _ _ | .andi rt _ _ | .ori rt _ _ | .xori rt _ _ | .slti rt _ _ | .lw rt _ _ => some rt
  | .sw _ _ _ | .beq _ _ _ | .bne _ _ _ | .j _ | .jal _ | .jr _ => none

/-- An instruction with every register operand renamed by `f`. -/
def renameInstr (f : Reg → Reg) : Instr → Instr
  | .add rd rs rt => .add (f rd) (f rs) (f rt)
  | .sub rd rs rt => .sub (f rd) (f rs) (f rt)
  | .and rd rs rt => .and (f rd) (f rs) (f rt)
  | .or rd rs rt => .or (f rd) (f rs) (f rt)
  | .xor rd rs rt => .xor (f rd) (f rs) (f rt)
  | .nor rd rs rt => .nor (f rd) (f rs) (f rt)
  | .slt rd rs rt => .slt (f rd) (f rs) (f rt)
  | .sll rd rt sa => .sll (f rd) (f rt) sa
  | .srl rd rt sa => .srl (f rd) (f rt) sa
  | .sra rd rt sa => .sra (f rd) (f rt) sa
  | .addi rt rs imm => .addi (f rt) (f rs) imm
  | .andi rt rs imm => .andi (f rt) (f rs) imm
  | .ori rt rs imm => .ori (f rt) (f rs) imm
  | .xori rt rs imm => .xori (f rt) (f rs) imm
  | .slti rt rs imm => .slti (f rt) (f rs) imm
  | .lw rt rs imm => .lw (f rt) (f rs) imm
  | .sw rt rs imm => .sw (f rt) (f rs) imm
  | .beq rs rt imm => .beq (f rs) (f rt) imm
  | .bne rs rt imm => .bne (f rs) (f rt) imm
  | .j target => .j target
  | .jal target => .jal target
  | .jr rs => .jr (f rs)

/-- `t` is `s` with every register's content moved to the register `f` names, all else the same. -/
structure Renamed (f : Reg → Reg) (s t : State) : Prop where
  regs : ∀ r, t.reg (f r) = s.reg r
  lr : t.lr = s.lr
  pc : t.pc = s.pc
  mem : t.mem = s.mem
  status : t.status = s.status

/-- The two states agree on everything but LR. -/
structure SameButLr (s t : State) : Prop where
  regs : SameRegs s t
  pc : t.pc = s.pc
  mem : t.mem = s.mem
  status : t.status = s.status

/-- R100, R101: what a FATAL record says is true of the state it stands in. -/
def RecordSound (p : Params) (s : State) : FatalInfo → Prop
  | .decodeFatal ipc word opcode funct =>
    inBounds p.memSize ipc = true ∧ word = s.mem.wordAt ipc.toNat ∧ definedWord p.functMap word = false ∧
      opcode = word.extractLsb' 26 6 ∧ funct = word.extractLsb' 0 6 ∧ s.pc = ipc + 4
  | .memoryBoundsFatal .fetch addr ipc =>
    inBounds p.memSize addr = false ∧ addr = ipc ∧ s.pc = ipc
  | .memoryBoundsFatal .load addr ipc =>
    inBounds p.memSize ipc = true ∧ s.pc = ipc + 4 ∧
      ∃ rt rs imm, decode p.functMap (s.mem.wordAt ipc.toNat) = .ok (.lw rt rs imm) ∧
        addr = eaWord (s.reg rs) imm ∧
        (inBounds p.memSize addr = false ∨ (p.eaWrap = .fatal ∧ eaFits (s.reg rs) imm = false))
  | .memoryBoundsFatal .store addr ipc =>
    inBounds p.memSize ipc = true ∧ s.pc = ipc + 4 ∧
      ∃ rt rs imm, decode p.functMap (s.mem.wordAt ipc.toNat) = .ok (.sw rt rs imm) ∧
        addr = eaWord (s.reg rs) imm ∧
        (inBounds p.memSize addr = false ∨ (p.eaWrap = .fatal ∧ eaFits (s.reg rs) imm = false))

/-- 30_encoding.md R60: the line of assembly is in range, and its word decodes to this instruction. -/
def AssemblesTo (fm : FunctMap) (a : Asm) (i : Instr) : Prop :=
  ∃ w, assemble fm a = some w ∧ decode fm w = .ok i

/-- The invariant of a run: memory is in canonical form and holds only addresses below `MEM_SIZE` (R33), and a
FATAL record is true of the state (R99 to R101). -/
structure Inv (p : Params) (s : State) : Prop where
  canonical : s.mem.wf = true
  within : s.mem.within p.memSize = true
  record : ∀ info, s.status = .fatal info → RecordSound p s info

end Sys2Proof.Machine
end

