-- ==== Sys2Proof/Certificates/Slice0/Obligations.lean ====
section
/-! DEFINITION. The statements for the provers. In a statement about `exec` the state is the one after the fetch
advance, so its `pc` is the advanced PC `pc_adv` (40_cycle.md R65, R70). The encoding clauses of R-type instructions
hold for every legal `FUNCT_MAP` (30_encoding.md R57, 92 D2); that the default holds the MIPS values rests on
log entry 2 and is stated by `DecoderAgreesWithOpcodeTable` alone. -/

open Sys2Proof Sys2Proof.Machine

/-- O1. R73. `add` writes the sum modulo 2^32. The funct value of the rule's encoding line is the default of `FUNCT_MAP`, from general knowledge
(log entry 2): this statement holds for every legal map and does not rest on it. -/
def Obligations.AddWrapsModulo : Prop :=
  (∀ fm : FunctMap, fm.wf = true → ∀ (rs rt rd : Reg) (sa : BitVec 5),
    decode fm (0x00#6 ++ rs ++ rt ++ rd ++ sa ++ fm.add) = .ok (.add rd rs rt)) ∧
  ∀ (rd rs rt : Reg) (s : State), ∃ t, exec (.add rd rs rt) s = .next t ∧ OnlyRegWritten rd s t ∧
    (t.reg rd).toNat = ((s.reg rs).toNat + (s.reg rt).toNat) % 2 ^ 32

/-- O2. R74. `sub` writes the difference modulo 2^32. The funct value of the rule's encoding line is the default of `FUNCT_MAP`, from general knowledge
(log entry 2): this statement holds for every legal map and does not rest on it. -/
def Obligations.SubtractWrapsModulo : Prop :=
  (∀ fm : FunctMap, fm.wf = true → ∀ (rs rt rd : Reg) (sa : BitVec 5),
    decode fm (0x00#6 ++ rs ++ rt ++ rd ++ sa ++ fm.sub) = .ok (.sub rd rs rt)) ∧
  ∀ (rd rs rt : Reg) (s : State), ∃ t, exec (.sub rd rs rt) s = .next t ∧ OnlyRegWritten rd s t ∧
    (t.reg rd).toNat = ((s.reg rs).toNat + (2 ^ 32 - (s.reg rt).toNat)) % 2 ^ 32

/-- O3. R75. `and` writes the bitwise and. The funct value of the rule's encoding line is the default of `FUNCT_MAP`, from general knowledge
(log entry 2): this statement holds for every legal map and does not rest on it. -/
def Obligations.AndIsBitwise : Prop :=
  (∀ fm : FunctMap, fm.wf = true → ∀ (rs rt rd : Reg) (sa : BitVec 5),
    decode fm (0x00#6 ++ rs ++ rt ++ rd ++ sa ++ fm.and) = .ok (.and rd rs rt)) ∧
  ∀ (rd rs rt : Reg) (s : State), ∃ t, exec (.and rd rs rt) s = .next t ∧ OnlyRegWritten rd s t ∧
    ∀ k < 32, (t.reg rd).getLsbD k = ((s.reg rs).getLsbD k && (s.reg rt).getLsbD k)

/-- O4. R76. `or` writes the bitwise or. The funct value of the rule's encoding line is the default of `FUNCT_MAP`, from general knowledge
(log entry 2): this statement holds for every legal map and does not rest on it. -/
def Obligations.OrIsBitwise : Prop :=
  (∀ fm : FunctMap, fm.wf = true → ∀ (rs rt rd : Reg) (sa : BitVec 5),
    decode fm (0x00#6 ++ rs ++ rt ++ rd ++ sa ++ fm.or) = .ok (.or rd rs rt)) ∧
  ∀ (rd rs rt : Reg) (s : State), ∃ t, exec (.or rd rs rt) s = .next t ∧ OnlyRegWritten rd s t ∧
    ∀ k < 32, (t.reg rd).getLsbD k = ((s.reg rs).getLsbD k || (s.reg rt).getLsbD k)

/-- O5. R77. `xor` writes the bitwise exclusive or. The funct value of the rule's encoding line is the default of `FUNCT_MAP`, from general knowledge
(log entry 2): this statement holds for every legal map and does not rest on it. -/
def Obligations.XorIsBitwise : Prop :=
  (∀ fm : FunctMap, fm.wf = true → ∀ (rs rt rd : Reg) (sa : BitVec 5),
    decode fm (0x00#6 ++ rs ++ rt ++ rd ++ sa ++ fm.xor) = .ok (.xor rd rs rt)) ∧
  ∀ (rd rs rt : Reg) (s : State), ∃ t, exec (.xor rd rs rt) s = .next t ∧ OnlyRegWritten rd s t ∧
    ∀ k < 32, (t.reg rd).getLsbD k = Bool.xor ((s.reg rs).getLsbD k) ((s.reg rt).getLsbD k)

/-- O6. R78. `nor` writes the bitwise not of the or. The funct value of the rule's encoding line is the default of `FUNCT_MAP`, from general knowledge
(log entry 2): this statement holds for every legal map and does not rest on it. -/
def Obligations.NorIsBitwise : Prop :=
  (∀ fm : FunctMap, fm.wf = true → ∀ (rs rt rd : Reg) (sa : BitVec 5),
    decode fm (0x00#6 ++ rs ++ rt ++ rd ++ sa ++ fm.nor) = .ok (.nor rd rs rt)) ∧
  ∀ (rd rs rt : Reg) (s : State), ∃ t, exec (.nor rd rs rt) s = .next t ∧ OnlyRegWritten rd s t ∧
    ∀ k < 32, (t.reg rd).getLsbD k = !((s.reg rs).getLsbD k || (s.reg rt).getLsbD k)

/-- O7. R79. `slt` writes 1 when x[rs] is less than x[rt] as signed numbers, else 0. The funct value of the rule's encoding line is the default of `FUNCT_MAP`, from general knowledge
(log entry 2): this statement holds for every legal map and does not rest on it. -/
def Obligations.SltComparesSigned : Prop :=
  (∀ fm : FunctMap, fm.wf = true → ∀ (rs rt rd : Reg) (sa : BitVec 5),
    decode fm (0x00#6 ++ rs ++ rt ++ rd ++ sa ++ fm.slt) = .ok (.slt rd rs rt)) ∧
  ∀ (rd rs rt : Reg) (s : State), ∃ t, exec (.slt rd rs rt) s = .next t ∧ OnlyRegWritten rd s t ∧
    t.reg rd = if (s.reg rs).toInt < (s.reg rt).toInt then 1#32 else 0#32

/-- O8. R80. `sll` shifts left by sa, zeros entering at bit 0. -/
def Obligations.SllMultipliesByPowerOfTwo : Prop :=
  (∀ fm : FunctMap, fm.wf = true → ∀ (rs rt rd : Reg) (sa : BitVec 5),
    decode fm (0x00#6 ++ rs ++ rt ++ rd ++ sa ++ 0x00#6) = .ok (.sll rd rt sa)) ∧
  ∀ (rd rt : Reg) (sa : BitVec 5) (s : State), ∃ t, exec (.sll rd rt sa) s = .next t ∧
    OnlyRegWritten rd s t ∧ (t.reg rd).toNat = (s.reg rt).toNat * 2 ^ sa.toNat % 2 ^ 32

/-- O9. R81. `srl` shifts right by sa, zeros entering at bit 31. The funct value of the rule's encoding line is
the default of `FUNCT_MAP` (log entry 2): this statement holds for every legal map. -/
def Obligations.SrlDividesByPowerOfTwo : Prop :=
  (∀ fm : FunctMap, fm.wf = true → ∀ (rs rt rd : Reg) (sa : BitVec 5),
    decode fm (0x00#6 ++ rs ++ rt ++ rd ++ sa ++ fm.srl) = .ok (.srl rd rt sa)) ∧
  ∀ (rd rt : Reg) (sa : BitVec 5) (s : State), ∃ t, exec (.srl rd rt sa) s = .next t ∧
    OnlyRegWritten rd s t ∧ (t.reg rd).toNat = (s.reg rt).toNat / 2 ^ sa.toNat

/-- O10. R82, for both values of `SRA_MODE`, so that nothing rests on the choice between them (92 D3, log entry 3). The funct
value is the default of `FUNCT_MAP` (log entry 2): this statement holds for every legal map. -/
def Obligations.SraFollowsItsMode : Prop :=
  (∀ fm : FunctMap, fm.wf = true → ∀ (rs rt rd : Reg) (sa : BitVec 5),
    decode fm (0x00#6 ++ rs ++ rt ++ rd ++ sa ++ fm.sra) = .ok (.sra rd rt sa)) ∧
  ∀ (p : Params) (rd rt : Reg) (sa : BitVec 5) (s : State), ∃ t, execUnder p (.sra rd rt sa) s = .next t ∧
    OnlyRegWritten rd s t ∧
    (p.sraMode = .arithmetic → (t.reg rd).toInt = Int.fdiv (s.reg rt).toInt (2 ^ sa.toNat)) ∧
    (p.sraMode = .logical → (t.reg rd).toNat = (s.reg rt).toNat / 2 ^ sa.toNat)

/-- O11. `sra` in the hardware's mode. That the mode is arithmetic is the spec's own choice (92 D3, log entry 3). -/
def Obligations.SraOnThisHardwareFillsWithSign : Prop :=
  ∀ (rd rt : Reg) (sa : BitVec 5) (s : State), ∃ t, exec (.sra rd rt sa) s = .next t ∧
    OnlyRegWritten rd s t ∧
    ∀ k < 32, (t.reg rd).getLsbD k =
      if k + sa.toNat < 32 then (s.reg rt).getLsbD (k + sa.toNat) else (s.reg rt).getLsbD 31

/-- O12. R83. `addi` adds the sign-extended immediate modulo 2^32. -/
def Obligations.AddiAddsSignExtended : Prop :=
  (∀ (fm : FunctMap) (rs rt : Reg) (imm : BitVec 16),
    decode fm (0x08#6 ++ rs ++ rt ++ imm) = .ok (.addi rt rs imm)) ∧
  ∀ (rt rs : Reg) (imm : BitVec 16) (s : State), ∃ t, exec (.addi rt rs imm) s = .next t ∧
    OnlyRegWritten rt s t ∧ ((t.reg rt).toNat : Int) = ((s.reg rs).toNat + imm.toInt) % 2 ^ 32

/-- O13. R84. `andi` ands with the zero-extended immediate. -/
def Obligations.AndiMasksWithZeroExtended : Prop :=
  (∀ (fm : FunctMap) (rs rt : Reg) (imm : BitVec 16),
    decode fm (0x0C#6 ++ rs ++ rt ++ imm) = .ok (.andi rt rs imm)) ∧
  ∀ (rt rs : Reg) (imm : BitVec 16) (s : State), ∃ t, exec (.andi rt rs imm) s = .next t ∧
    OnlyRegWritten rt s t ∧ ∀ k < 32, (t.reg rt).getLsbD k = ((s.reg rs).getLsbD k && (decide (k < 16) && imm.getLsbD k))

/-- O14. R85. `ori` ors with the zero-extended immediate. -/
def Obligations.OriSetsZeroExtended : Prop :=
  (∀ (fm : FunctMap) (rs rt : Reg) (imm : BitVec 16),
    decode fm (0x0D#6 ++ rs ++ rt ++ imm) = .ok (.ori rt rs imm)) ∧
  ∀ (rt rs : Reg) (imm : BitVec 16) (s : State), ∃ t, exec (.ori rt rs imm) s = .next t ∧
    OnlyRegWritten rt s t ∧ ∀ k < 32, (t.reg rt).getLsbD k = ((s.reg rs).getLsbD k || (decide (k < 16) && imm.getLsbD k))

/-- O15. R86. `xori` exclusive-ors with the zero-extended immediate. -/
def Obligations.XoriFlipsZeroExtended : Prop :=
  (∀ (fm : FunctMap) (rs rt : Reg) (imm : BitVec 16),
    decode fm (0x0E#6 ++ rs ++ rt ++ imm) = .ok (.xori rt rs imm)) ∧
  ∀ (rt rs : Reg) (imm : BitVec 16) (s : State), ∃ t, exec (.xori rt rs imm) s = .next t ∧
    OnlyRegWritten rt s t ∧ ∀ k < 32, (t.reg rt).getLsbD k = Bool.xor ((s.reg rs).getLsbD k) (decide (k < 16) && imm.getLsbD k)

/-- O16. R87. `slti` writes 1 when x[rs] is less than the signed immediate, else 0. -/
def Obligations.SltiComparesWithSignExtended : Prop :=
  (∀ (fm : FunctMap) (rs rt : Reg) (imm : BitVec 16),
    decode fm (0x0A#6 ++ rs ++ rt ++ imm) = .ok (.slti rt rs imm)) ∧
  ∀ (rt rs : Reg) (imm : BitVec 16) (s : State), ∃ t, exec (.slti rt rs imm) s = .next t ∧
    OnlyRegWritten rt s t ∧ t.reg rt = if (s.reg rs).toInt < imm.toInt then 1#32 else 0#32

/-- O17. The effective address under both values of `EA_WRAP`. That the sum may wrap is the spec's own decision (92 D4, log
entry 4); the last clause is about the default `MEM_SIZE` (log entry 1). -/
def Obligations.EffectiveAddressUnderBothModes : Prop :=
  ∀ (base : Word) (imm : BitVec 16),
    ((eaWord base imm).toNat : Int) = ((base.toNat : Int) + imm.toInt) % 2 ^ 32 ∧
    eaAllowed .wrap base imm = true ∧
    (eaAllowed .fatal base imm = true ↔
      0 ≤ (base.toNat : Int) + imm.toInt ∧ (base.toNat : Int) + imm.toInt < 2 ^ 32) ∧
    (eaAllowed .fatal base imm = false → inBounds Config.params.memSize (eaWord base imm) = true →
      0xFFFF8001 ≤ base.toNat ∧ 0 < imm.toInt ∧ 2 ^ 32 ≤ (base.toNat : Int) + imm.toInt)

/-- O18. R89, for every `MEM_SIZE` and `EA_WRAP` (92 D4, D8), so that nothing rests on their defaults. No alignment is asked for.
The bounds check and the record in it are those of R34 and R101, with the spec's decisions 92 D5 and D10. -/
def Obligations.LoadWordUnderEveryParameter : Prop :=
  (∀ (fm : FunctMap) (rs rt : Reg) (imm : BitVec 16),
    decode fm (0x23#6 ++ rs ++ rt ++ imm) = .ok (.lw rt rs imm)) ∧
  ∀ (p : Params) (rt rs : Reg) (imm : BitVec 16) (s : State), ∃ t,
    execUnder p (.lw rt rs imm) s = .next t ∧
    if eaAllowed p.eaWrap (s.reg rs) imm = true ∧ inBounds p.memSize (eaWord (s.reg rs) imm) = true then
      OnlyRegWritten rt s t ∧
        ∀ k < 4, (t.reg rt).extractLsb' (8 * k) 8 = s.mem.read ((eaWord (s.reg rs) imm).toNat + k)
    else EnteredFatal (.memoryBoundsFatal .load (eaWord (s.reg rs) imm) (s.pc - 4)) s t

/-- O19. Completion of `lw` with the hardware's `MEM_SIZE` and `EA_WRAP`, the spec's defaults (log entries 1 and 4). -/
def Obligations.LoadWordCompletesInBounds : Prop :=
  ∀ (rt rs : Reg) (imm : BitVec 16) (s : State), (eaWord (s.reg rs) imm).toNat ≤ 0xFFFFC →
    ∃ t, exec (.lw rt rs imm) s = .next t ∧ OnlyRegWritten rt s t ∧
      t.reg rt = s.mem.read ((eaWord (s.reg rs) imm).toNat + 3) ++ s.mem.read ((eaWord (s.reg rs) imm).toNat + 2) ++
        s.mem.read ((eaWord (s.reg rs) imm).toNat + 1) ++ s.mem.read (eaWord (s.reg rs) imm).toNat

/-- O20. R90, for every `MEM_SIZE` and `EA_WRAP` (92 D4, D8), so that nothing rests on their defaults. The premise is the
invariant `Inv.canonical`. The bounds check and the record are those of R34 and R101, with the spec's decisions 92 D5 and
D10; that a failing store leaves memory unchanged R90 says itself (92 D9, log entry 13). -/
def Obligations.StoreWordUnderEveryParameter : Prop :=
  (∀ (fm : FunctMap) (rs rt : Reg) (imm : BitVec 16),
    decode fm (0x2B#6 ++ rs ++ rt ++ imm) = .ok (.sw rt rs imm)) ∧
  ∀ (p : Params) (rt rs : Reg) (imm : BitVec 16) (s : State), s.mem.wf = true → ∃ t,
    execUnder p (.sw rt rs imm) s = .next t ∧
    if eaAllowed p.eaWrap (s.reg rs) imm = true ∧ inBounds p.memSize (eaWord (s.reg rs) imm) = true then
      SameRegs s t ∧ t.lr = s.lr ∧ t.pc = s.pc ∧ t.status = s.status ∧
        (∀ k < 4, t.mem.read ((eaWord (s.reg rs) imm).toNat + k) = (s.reg rt).extractLsb' (8 * k) 8) ∧
        ∀ a, a < (eaWord (s.reg rs) imm).toNat ∨ (eaWord (s.reg rs) imm).toNat + 4 ≤ a →
          t.mem.read a = s.mem.read a
    else EnteredFatal (.memoryBoundsFatal .store (eaWord (s.reg rs) imm) (s.pc - 4)) s t

/-- O21. Completion of `sw` with the hardware's `MEM_SIZE` and `EA_WRAP`, the spec's defaults (log entries 1 and 4). -/
def Obligations.StoreWordCompletesInBounds : Prop :=
  ∀ (rt rs : Reg) (imm : BitVec 16) (s : State), s.mem.wf = true → (eaWord (s.reg rs) imm).toNat ≤ 0xFFFFC →
    ∃ t, exec (.sw rt rs imm) s = .next t ∧
      memRead Config.params.memSize t.mem (eaWord (s.reg rs) imm) = some (s.reg rt) ∧
      (∀ a, a < (eaWord (s.reg rs) imm).toNat ∨ (eaWord (s.reg rs) imm).toNat + 4 ≤ a →
        t.mem.read a = s.mem.read a) ∧
      SameRegs s t ∧ t.lr = s.lr ∧ t.pc = s.pc ∧ t.status = s.status

/-- O22. R91. `beq` adds the unscaled byte offset to the advanced PC when the registers are equal. -/
def Obligations.BeqBranchesWhenEqual : Prop :=
  (∀ (fm : FunctMap) (rs rt : Reg) (imm : BitVec 16),
    decode fm (0x04#6 ++ rs ++ rt ++ imm) = .ok (.beq rs rt imm)) ∧
  ∀ (rs rt : Reg) (imm : BitVec 16) (s : State), ∃ t, exec (.beq rs rt imm) s = .next t ∧
    OnlyPcWritten s t ∧
    (s.reg rs = s.reg rt → (t.pc.toNat : Int) = ((s.pc.toNat : Int) + imm.toInt) % 2 ^ 32) ∧
    (s.reg rs ≠ s.reg rt → t.pc = s.pc)

/-- O23. R92. `bne` adds the unscaled byte offset to the advanced PC when the registers differ. -/
def Obligations.BneBranchesWhenDifferent : Prop :=
  (∀ (fm : FunctMap) (rs rt : Reg) (imm : BitVec 16),
    decode fm (0x05#6 ++ rs ++ rt ++ imm) = .ok (.bne rs rt imm)) ∧
  ∀ (rs rt : Reg) (imm : BitVec 16) (s : State), ∃ t, exec (.bne rs rt imm) s = .next t ∧
    OnlyPcWritten s t ∧
    (s.reg rs ≠ s.reg rt → (t.pc.toNat : Int) = ((s.pc.toNat : Int) + imm.toInt) % 2 ^ 32) ∧
    (s.reg rs = s.reg rt → t.pc = s.pc)

/-- O24. R93. The jump target, bit by bit. -/
def Obligations.JumpReplacesTheLowBits : Prop :=
  (∀ (fm : FunctMap) (target : BitVec 26), decode fm (0x02#6 ++ target) = .ok (.j target)) ∧
  ∀ (target : BitVec 26) (s : State), ∃ t, exec (.j target) s = .next t ∧ OnlyPcWritten s t ∧
    ∀ k < 32, t.pc.getLsbD k =
      if k < 2 then false else if k < 28 then target.getLsbD (k - 2) else s.pc.getLsbD k

/-- O25. R94. The link and the jump target; no general register is written. -/
def Obligations.JumpAndLinkSavesAdvancedPc : Prop :=
  (∀ (fm : FunctMap) (target : BitVec 26), decode fm (0x03#6 ++ target) = .ok (.jal target)) ∧
  ∀ (target : BitVec 26) (s : State), ∃ t, exec (.jal target) s = .next t ∧
    t.lr = s.pc ∧ SameRegs s t ∧ t.status = s.status ∧ SameMemory s t ∧
    ∀ k < 32, t.pc.getLsbD k =
      if k < 2 then false else if k < 28 then target.getLsbD (k - 2) else s.pc.getLsbD k

/-- O26. R95. Nothing is added to the register. The funct value is the default of `FUNCT_MAP` (log entry 2): this statement
holds for every legal map. -/
def Obligations.JumpRegisterGoesToTheRegister : Prop :=
  (∀ fm : FunctMap, fm.wf = true → ∀ (rs rt rd : Reg) (sa : BitVec 5),
    decode fm (0x00#6 ++ rs ++ rt ++ rd ++ sa ++ fm.jr) = .ok (.jr rs)) ∧
  ∀ (rs : Reg) (s : State), ∃ t, exec (.jr rs) s = .next t ∧ OnlyPcWritten s t ∧ t.pc = s.reg rs

/-- O27. The step, for a word that is an instruction (40_cycle.md R70, which the spec derives from R63 to R69). -/
def Obligations.StepRunsTheDecodedInstruction : Prop :=
  ∀ (s : State) (i : Instr), s.status = .running → inBounds Config.params.memSize s.pc = true →
    decode Config.params.functMap (s.mem.wordAt s.pc.toNat) = .ok i → step s = exec i (s.setPc (s.pc + 4))

/-- O28. R64. The fetch and its fault. -/
def Obligations.FetchReadsTheWordOrFaults : Prop :=
  ∀ s : State, s.status = .running →
    (∀ w, memRead Config.params.memSize s.mem s.pc = some w →
      step s = dispatch Config.params exec w (s.setPc (s.pc + 4))) ∧
    (inBounds Config.params.memSize s.pc = false →
      ∃ t, step s = .next t ∧ EnteredFatal (.memoryBoundsFatal .fetch s.pc s.pc) s t)

/-- O29. DecodeFatal and its record, whose content is the spec's own decision (92 D10). -/
def Obligations.UndefinedWordRaisesDecodeFatal : Prop :=
  ∀ s : State, s.status = .running → inBounds Config.params.memSize s.pc = true →
    definedWord Config.params.functMap (s.mem.wordAt s.pc.toNat) = false →
    ∃ t, step s = .next t ∧
      EnteredFatal (.decodeFatal s.pc (s.mem.wordAt s.pc.toNat) ((s.mem.wordAt s.pc.toNat).extractLsb' 26 6)
        ((s.mem.wordAt s.pc.toNat).extractLsb' 0 6)) (s.setPc (s.pc + 4)) t

/-- O30. Entering FATAL (60_exceptions.md R99), and that nothing but reset leaves it. That a run from FATAL answers the fault
`engineInFatal` with the record is the model's choice (log entry 9, DEDUCED): the spec says only that the engine never steps
again. The reset input in any state is 92 D12 (log entry 8). -/
def Obligations.FatalIsPreciseAndTerminal : Prop :=
  (∀ (s t : State) (info : FatalInfo), s.status = .running → step s = .next t → t.status = .fatal info →
    SameRegs s t ∧ t.lr = s.lr ∧ SameMemory s t ∧
    ((∃ a ipc, info = .memoryBoundsFatal .fetch a ipc) → t.pc = s.pc) ∧
    ((¬ ∃ a ipc, info = .memoryBoundsFatal .fetch a ipc) → t.pc = s.pc + 4)) ∧
  (∀ (s : State) (info : FatalInfo), s.status = .fatal info →
    ∀ n, Host.Core.run core (n + 1) s = .fault (.engineInFatal info)) ∧
  ∀ (size : Nat) (image : List Byte) (s t : State), hostReset size image s = .started t → t.status = .running

/-- O31. The priority of the FATAL conditions (60_exceptions.md R103, which the spec derives from R70), with the hardware's
parameters (log entries 1, 2 and 4). -/
def Obligations.FatalConditionsComeInOrder : Prop :=
  ∀ s : State, s.status = .running → ∃ t, step s = .next t ∧
    if inBounds Config.params.memSize s.pc = false then
      t.status = .fatal (.memoryBoundsFatal .fetch s.pc s.pc)
    else match decode Config.params.functMap (s.mem.wordAt s.pc.toNat) with
      | .error _ => t.status = .fatal (.decodeFatal s.pc (s.mem.wordAt s.pc.toNat)
          ((s.mem.wordAt s.pc.toNat).extractLsb' 26 6) ((s.mem.wordAt s.pc.toNat).extractLsb' 0 6))
      | .ok (.lw _ rs imm) => t.status =
          if inBounds Config.params.memSize (eaWord (s.reg rs) imm) = true then .running
          else .fatal (.memoryBoundsFatal .load (eaWord (s.reg rs) imm) s.pc)
      | .ok (.sw _ rs imm) => t.status =
          if inBounds Config.params.memSize (eaWord (s.reg rs) imm) = true then .running
          else .fatal (.memoryBoundsFatal .store (eaWord (s.reg rs) imm) s.pc)
      | .ok _ => t.status = .running

/-- O32. A step is defined only while the status is Running (40_cycle.md R63), and every Running state has one (R70, R72). That `step`
from FATAL answers the fault `engineInFatal` with the record is the model's choice (log entry 9, DEDUCED): the spec says only
that there is no step. -/
def Obligations.StepExistsExactlyWhenRunning : Prop :=
  ∀ s : State, (s.status = .running → ∃ t, step s = .next t) ∧
    ∀ info, s.status = .fatal info → step s = .fault (.engineInFatal info)

/-- O33. R69. The update of pc after execute. -/
def Obligations.PcIsSetByTransfersAlone : Prop :=
  (∀ (i : Instr) (s : State), ∃ t, exec i s = .next t ∧
    match i with
    | .beq rs rt imm => t.pc = if s.reg rs = s.reg rt then s.pc + imm.signExtend 32 else s.pc
    | .bne rs rt imm => t.pc = if s.reg rs ≠ s.reg rt then s.pc + imm.signExtend 32 else s.pc
    | .j target => t.pc = (s.pc &&& 0xF0000000) ||| (target.setWidth 32 <<< 2)
    | .jal target => t.pc = (s.pc &&& 0xF0000000) ||| (target.setWidth 32 <<< 2)
    | .jr rs => t.pc = s.reg rs
    | _ => t.pc = s.pc) ∧
  ∀ s : State, s.status = .running → inBounds Config.params.memSize s.pc = true →
    step s = dispatch Config.params exec (s.mem.wordAt s.pc.toNat) (s.setPc (s.pc + 4))

/-- O34. R21. The link register is written by `jal` alone and read by no instruction. -/
def Obligations.LinkRegisterIsJalsAlone : Prop :=
  (∀ (i : Instr) (s t : State), (∀ target, i ≠ .jal target) → exec i s = .next t → t.lr = s.lr) ∧
  (∀ (i : Instr) (s s' : State), SameButLr s s' →
    ∃ t t', exec i s = .next t ∧ exec i s' = .next t' ∧ SameButLr t t') ∧
  (∀ (target : BitVec 26) (s : State), ∃ t, exec (.jal target) s = .next t ∧ SameRegs s t) ∧
  (∀ s : State, (observe s).lr = s.lr) ∧ State.reset.lr = 0

/-- O35. The writers of the general registers (the table of 10_state.md R31). -/
def Obligations.OnlyTheDestinationIsWritten : Prop :=
  ∀ (i : Instr) (s : State), ∃ t, exec i s = .next t ∧
    ∀ r, destination i ≠ some r → t.reg r = s.reg r

/-- O36. The writers of memory (10_state.md R28 and the table of R31). -/
def Obligations.OnlyStoreWordChangesMemory : Prop :=
  ∀ (i : Instr) (s t : State), (∀ rt rs imm, i ≠ .sw rt rs imm) → exec i s = .next t → SameMemory s t

/-- O37. Register 0, and every other, is an ordinary register (10_state.md R19, 00_scope.md R14). -/
def Obligations.RegistersCanBeRenamed : Prop :=
  ∀ f : Reg → Reg, Function.Injective f → ∀ (i : Instr) (s s' : State), Renamed f s s' →
    ∃ t t', exec i s = .next t ∧ exec (renameInstr f i) s' = .next t' ∧ Renamed f t t'

/-- O38. The bounds check (20_memory.md R34); that the sum does not wrap is the spec's own decision (92 D5). -/
def Obligations.BoundsAreThoseOfAllFourBytes : Prop :=
  ∀ (size : Nat) (a : Word), inBounds size a = true ↔ ∀ k < 4, a.toNat + k < size

/-- O39. R35. The little-endian word read. -/
def Obligations.MemoryReadIsLittleEndian : Prop :=
  ∀ (size : Nat) (m : Memory) (a : Word),
    (inBounds size a = true → ∃ v, memRead size m a = some v ∧
      ∀ k < 4, v.extractLsb' (8 * k) 8 = m.read (a.toNat + k)) ∧
    (inBounds size a = false → memRead size m a = none)

/-- O40. R36. The little-endian word write. -/
def Obligations.MemoryWriteStoresFourBytes : Prop :=
  ∀ (size : Nat) (m : Memory) (a v : Word), m.wf = true →
    (inBounds size a = true → ∃ m', memWrite size m a v = some m' ∧
      (∀ k < 4, m'.read (a.toNat + k) = v.extractLsb' (8 * k) 8) ∧
      ∀ b, b < a.toNat ∨ a.toNat + 4 ≤ b → m'.read b = m.read b) ∧
    (inBounds size a = false → memWrite size m a v = none)

/-- O41. Overlapping accesses go byte by byte (20_memory.md R38, which the spec derives from R35 and R36). -/
def Obligations.ReadAfterWriteMergesBytes : Prop :=
  ∀ (size : Nat) (m : Memory) (a b v : Word), m.wf = true → inBounds size a = true → inBounds size b = true →
    ∃ m' w, memWrite size m a v = some m' ∧ memRead size m' b = some w ∧
      (∀ k < 4, w.extractLsb' (8 * k) 8 =
        if a.toNat ≤ b.toNat + k ∧ b.toNat + k < a.toNat + 4 then v.extractLsb' (8 * (b.toNat + k - a.toNat)) 8
        else m.read (b.toNat + k)) ∧
      (a = b → w = v)

/-- O42. Instruction fetch sees every earlier store (20_memory.md R46, which the spec derives from R32, R44 and R64). -/
def Obligations.NextFetchSeesAStoreToIt : Prop :=
  ∀ (s : State) (rt rs : Reg) (imm : BitVec 16) (j : Instr), s.status = .running → s.mem.wf = true →
    inBounds Config.params.memSize s.pc = true →
    decode Config.params.functMap (s.mem.wordAt s.pc.toNat) = .ok (.sw rt rs imm) →
    eaWord (s.reg rs) imm = s.pc + 4 → inBounds Config.params.memSize (s.pc + 4) = true →
    decode Config.params.functMap (s.reg rt) = .ok j →
    ∃ t, step s = .next t ∧ t.pc = s.pc + 4 ∧ step t = exec j (t.setPc (s.pc + 8))

/-- O43. R96. A taken branch or a jump takes effect at the next fetch. -/
def Obligations.NoDelaySlotAfterATransfer : Prop :=
  ∀ (s : State) (i : Instr), s.status = .running → inBounds Config.params.memSize s.pc = true →
    decode Config.params.functMap (s.mem.wordAt s.pc.toNat) = .ok i →
    ((∃ rs rt imm, i = .beq rs rt imm) ∨ (∃ rs rt imm, i = .bne rs rt imm) ∨ (∃ target, i = .j target) ∨
      (∃ target, i = .jal target) ∨ (∃ rs, i = .jr rs)) →
    ∃ t, step s = .next t ∧ exec i (s.setPc (s.pc + 4)) = .next t ∧
      ∀ j, inBounds Config.params.memSize t.pc = true →
        decode Config.params.functMap (s.mem.wordAt t.pc.toNat) = .ok j →
        step t = exec j (t.setPc (t.pc + 4))

/-- O44. A bad target is found by the next fetch (45_control_transfer.md R97, which the spec derives from R91, R92, R95, R40 and R64). -/
def Obligations.BadTargetFaultsAtTheNextFetch : Prop :=
  ∀ (s : State) (i : Instr), s.status = .running → inBounds Config.params.memSize s.pc = true →
    decode Config.params.functMap (s.mem.wordAt s.pc.toNat) = .ok i →
    ((∃ rs rt imm, i = .beq rs rt imm) ∨ (∃ rs rt imm, i = .bne rs rt imm) ∨ (∃ target, i = .j target) ∨
      (∃ target, i = .jal target) ∨ (∃ rs, i = .jr rs)) →
    ∃ t, step s = .next t ∧ t.status = .running ∧
      (inBounds Config.params.memSize t.pc = false →
        ∃ u, step t = .next u ∧ EnteredFatal (.memoryBoundsFatal .fetch t.pc t.pc) t u)

/-- O45. R71. The zero word, and running off the end of a program into zero memory. -/
def Obligations.ZeroWordsRunToTheFetchFault : Prop :=
  (∀ fm : FunctMap, fm.wf = true → decode fm 0 = .ok (.sll 0 0 0)) ∧
  (∀ s : State, exec (.sll 0 0 0) s = .next s) ∧
  ∀ s : State, s.status = .running →
    (∀ a, s.pc.toNat ≤ a → a < Config.params.memSize → s.mem.read a = 0) →
    ∀ n, s.pc.toNat + 4 * n ≤ Config.params.memSize →
      Host.Core.run core n s = .next (s.setPc (s.pc + BitVec.ofNat 32 (4 * n))) ∧
      (Config.params.memSize < s.pc.toNat + 4 * n + 4 →
        ∃ t, Host.Core.run core (n + 1) s = .next t ∧
          EnteredFatal (.memoryBoundsFatal .fetch (s.pc + BitVec.ofNat 32 (4 * n)) (s.pc + BitVec.ofNat 32 (4 * n)))
            (s.setPc (s.pc + BitVec.ofNat 32 (4 * n))) t)

/-- O46. The invariant `Inv`, kept by every step, with the hardware's parameters and with every legal choice of them.
That memory is a list in canonical form is the model's choice (log entry 6, DESIGN CHOICE): the clause `Inv.canonical`
rests on no section of the spec. The fields of the FATAL record in `Inv.record` are the spec's own decision (92 D10,
log entry 14). -/
def Obligations.EveryStepKeepsTheInvariant : Prop :=
  (∀ s t : State, Inv Config.params s → step s = .next t → Inv Config.params t) ∧
  ∀ p : Params, p.wf = true → ∀ s t : State, Inv p s → stepUnder p s = .next t → Inv p t

/-- O47. The invariant `Inv` holds after reset (70_reset_and_hazards.md R115, R116). Its clause that memory is a list
in canonical form is the model's choice (log entry 6, DESIGN CHOICE) and rests on no section of the spec. -/
def Obligations.ResetMeetsTheInvariant : Prop :=
  Inv Config.params State.reset ∧
  ∀ (p : Params) (image : List Byte) (s t : State), hostReset p.memSize image s = .started t → Inv p t

/-- O48. R116. The image load. The order of an instruction word's bytes in the image follows from R35, the word read. -/
def Obligations.ResetLoadsTheImageVerbatim : Prop :=
  ∀ (size : Nat) (image : List Byte) (s : State),
    (image.length ≤ size → ∃ t, hostReset size image s = .started t ∧
      (∀ a, (h : a < image.length) → t.mem.read a = image[a]) ∧ ∀ a, image.length ≤ a → t.mem.read a = 0) ∧
    (size < image.length → hostReset size image s = .loadFatal)

/-- O49. The reset sequence. That pc is 0 and that reset may come in any state are the spec's own decisions (92 D11, log entry 5;
92 D12, log entry 8). -/
def Obligations.ResetClearsTheMachine : Prop :=
  ∀ (size : Nat) (image : List Byte) (s : State),
    (image.length ≤ size → ∃ t, hostReset size image s = .started t ∧
      (∀ r, t.reg r = 0) ∧ t.lr = 0 ∧ t.pc = 0 ∧ t.status = .running) ∧
    hostReset size [] s = .started State.reset

/-- O50. The round trip of the encoding (30_encoding.md R48 to R51, R56, R57; byte order 20_memory.md R37). -/
def Obligations.EncodeThenDecodeIsIdentity : Prop :=
  ∀ fm : FunctMap, fm.wf = true → ∀ i : Instr, decode fm (encode fm i) = .ok i ∧
    ∀ rest : List Byte, decodeBytes fm (bytesOfWord (encode fm i) ++ rest) = .ok (i, rest)

/-- O51. The ignored fields (30_encoding.md R55), as the mask `usedMask` of the bits an instruction uses. That `encode` writes 0 in
them is the model's choice (log entry 18, DEDUCED): R55 speaks of no encoder. -/
def Obligations.IgnoredFieldsChangeNothing : Prop :=
  ∀ fm : FunctMap, fm.wf = true → ∀ (w : Word) (i : Instr), decode fm w = .ok i →
    (∀ w', w' &&& usedMask i = w &&& usedMask i → decode fm w' = .ok i) ∧ encode fm i = w &&& usedMask i

/-- O52. The defined words (30_encoding.md R58, which the spec derives from R56 and R57). -/
def Obligations.InstructionsAreTheDefinedWords : Prop :=
  ∀ fm : FunctMap, fm.wf = true → ∀ w : Word,
    ((∃ i, decode fm w = .ok i) ↔ definedWord fm w = true) ∧
    (definedWord fm w = false → decode fm w = .error (if w.extractLsb' 26 6 = 0x00#6
      then .undefinedFunct (w.extractLsb' 0 6) else .undefinedOpcode (w.extractLsb' 26 6)))

/-- O53. The count of the defined words, which the spec derives at the end of 30_encoding.md R58. -/
def Obligations.CountOfDefinedWords : Prop :=
  ∀ fm : FunctMap, fm.wf = true →
    Nat.card (Subtype fun w : Word => definedWord fm w = true) = 0x2CB00000

/-- O54. The decoder against the match and mask columns of opcode_table.json. Ten funct values are the spec's own choice from
general knowledge (92 D2, log entry 2). -/
def Obligations.DecoderAgreesWithOpcodeTable : Prop :=
  ∀ w : Word,
    (∀ i, decode Config.defaultFunctMap w = .ok i →
      (opcodeTable.filter fun r => r.matches w).map TableRow.mnemonic = [i.mnemonic]) ∧
    ((∃ e, decode Config.defaultFunctMap w = .error e) → (opcodeTable.filter fun r => r.matches w) = [])

/-- O55. Words of 95_test_vectors.md, with the default `FUNCT_MAP` (log entry 2). -/
def Obligations.SampleWordsDecodeAsTheSpecSays : Prop :=
  decode Config.defaultFunctMap 0x00221820 = .ok (.add 3 1 2) ∧
  decode Config.defaultFunctMap 0x0022182A = .ok (.slt 3 1 2) ∧
  decode Config.defaultFunctMap 0x00021900 = .ok (.sll 3 2 4) ∧
  decode Config.defaultFunctMap 0x00021FC3 = .ok (.sra 3 2 31) ∧
  decode Config.defaultFunctMap 0x2022FFFF = .ok (.addi 2 1 0xFFFF) ∧
  decode Config.defaultFunctMap 0x2822FFFF = .ok (.slti 2 1 0xFFFF) ∧
  decode Config.defaultFunctMap 0x8C220004 = .ok (.lw 2 1 4) ∧
  decode Config.defaultFunctMap 0xAC220004 = .ok (.sw 2 1 4) ∧
  decode Config.defaultFunctMap 0x1422FFF8 = .ok (.bne 1 2 0xFFF8) ∧
  decode Config.defaultFunctMap 0x0C000100 = .ok (.jal 0x100) ∧
  decode Config.defaultFunctMap 0xFFFFFFFF = .error (.undefinedOpcode 0x3F) ∧
  decode Config.defaultFunctMap 0x00221821 = .error (.undefinedFunct 0x21) ∧
  decode Config.defaultFunctMap 0x3C011234 = .error (.undefinedOpcode 0x0F)

/-- O56. The assembler's forms (30_encoding.md R60, R61), whose syntax is the spec's own decision (92 D15): the ranges
(that a number outside its field is refused is the model's choice, log entry 19), and for each mnemonic the field that each written operand goes to. `v` is a
number written for a 16-bit immediate, unsigned or negative. -/
def Obligations.AssembledLinesDecodeToThemselves : Prop :=
  ∀ fm : FunctMap, fm.wf = true →
    (∀ a : Asm, a.wf = true → ∃ w, assemble fm a = some w ∧ decode fm w = .ok a.instr) ∧
    (∀ a : Asm, a.wf = false → assemble fm a = none) ∧
    assemble fm .nop = some 0 ∧
    (∀ a : Asm, a.wf = true ↔ match a with
      | .reg _ rd rs rt => rd < 32 ∧ rs < 32 ∧ rt < 32
      | .shift _ rd rt sa => rd < 32 ∧ rt < 32 ∧ sa < 32
      | .jr rs => rs < 32
      | .imm _ rt rs v => rt < 32 ∧ rs < 32 ∧ -32768 ≤ v ∧ v ≤ 65535
      | .branch _ rs rt off => rs < 32 ∧ rt < 32 ∧ -32768 ≤ off ∧ off ≤ 32767
      | .mem _ rt v rs => rt < 32 ∧ rs < 32 ∧ -32768 ≤ v ∧ v ≤ 65535
      | .jump _ target => target < 2 ^ 26
      | .nop => True) ∧
    ∀ (rd rs rt : Reg) (sa : BitVec 5) (imm : BitVec 16) (v : Int) (target : BitVec 26),
      (v = imm.toNat ∨ v = imm.toInt) →
      AssemblesTo fm (.reg .add rd.toNat rs.toNat rt.toNat) (.add rd rs rt) ∧
      AssemblesTo fm (.reg .sub rd.toNat rs.toNat rt.toNat) (.sub rd rs rt) ∧
      AssemblesTo fm (.reg .and rd.toNat rs.toNat rt.toNat) (.and rd rs rt) ∧
      AssemblesTo fm (.reg .or rd.toNat rs.toNat rt.toNat) (.or rd rs rt) ∧
      AssemblesTo fm (.reg .xor rd.toNat rs.toNat rt.toNat) (.xor rd rs rt) ∧
      AssemblesTo fm (.reg .nor rd.toNat rs.toNat rt.toNat) (.nor rd rs rt) ∧
      AssemblesTo fm (.reg .slt rd.toNat rs.toNat rt.toNat) (.slt rd rs rt) ∧
      AssemblesTo fm (.shift .sll rd.toNat rt.toNat sa.toNat) (.sll rd rt sa) ∧
      AssemblesTo fm (.shift .srl rd.toNat rt.toNat sa.toNat) (.srl rd rt sa) ∧
      AssemblesTo fm (.shift .sra rd.toNat rt.toNat sa.toNat) (.sra rd rt sa) ∧
      AssemblesTo fm (.jr rs.toNat) (.jr rs) ∧
      AssemblesTo fm (.imm .addi rt.toNat rs.toNat v) (.addi rt rs imm) ∧
      AssemblesTo fm (.imm .andi rt.toNat rs.toNat v) (.andi rt rs imm) ∧
      AssemblesTo fm (.imm .ori rt.toNat rs.toNat v) (.ori rt rs imm) ∧
      AssemblesTo fm (.imm .xori rt.toNat rs.toNat v) (.xori rt rs imm) ∧
      AssemblesTo fm (.imm .slti rt.toNat rs.toNat v) (.slti rt rs imm) ∧
      AssemblesTo fm (.branch .beq rs.toNat rt.toNat imm.toInt) (.beq rs rt imm) ∧
      AssemblesTo fm (.branch .bne rs.toNat rt.toNat imm.toInt) (.bne rs rt imm) ∧
      AssemblesTo fm (.mem .lw rt.toNat v rs.toNat) (.lw rt rs imm) ∧
      AssemblesTo fm (.mem .sw rt.toNat v rs.toNat) (.sw rt rs imm) ∧
      AssemblesTo fm (.jump .j target.toNat) (.j target) ∧
      AssemblesTo fm (.jump .jal target.toNat) (.jal target)
end

