-- ==== Sys2Proof/Laws/Memory.lean ====
section
/-! SUPPORT. Memory: every operation keeps the canonical form and the range of addresses, a read after a
write, and what `memRead` and `memWrite` can answer (20_memory.md R34 to R36, R42). -/

namespace Sys2Proof.Machine

/-! ## Reading -/

/-- Nothing is listed below the canonical form's lower bound. -/
theorem Memory.read_below {lo : Nat} {m : Memory} (h : Memory.wfFrom lo m = true) {a : Nat} (ha : a < lo) :
    m.read a = 0 := by
  induction m generalizing lo with
  | nil => rfl
  | cons c m ih =>
    obtain ⟨k, b⟩ := c
    simp only [Memory.wfFrom, Bool.and_eq_true, decide_eq_true_eq] at h
    have hk : k ≠ a := by omega
    simp only [Memory.read, hk, if_false]
    exact ih h.2 (by omega)

theorem Memory.wfFrom_mono {lo lo' : Nat} {m : Memory} (h : Memory.wfFrom lo m = true) (hl : lo' ≤ lo) :
    Memory.wfFrom lo' m = true := by
  cases m with
  | nil => rfl
  | cons c m =>
    simp only [Memory.wfFrom, Bool.and_eq_true, decide_eq_true_eq] at h ⊢
    exact ⟨⟨by omega, h.1.2⟩, h.2⟩

theorem Memory.read_consCell {k : Nat} {m : Memory} (h : Memory.wfFrom (k + 1) m = true) (v : Byte) (a : Nat) :
    (Memory.consCell k v m).read a = if a = k then v else m.read a := by
  unfold Memory.consCell
  split_ifs with hv ha ha
  · rw [ha, hv, Memory.read_below h (Nat.lt_succ_self k)]
  · rfl
  · simp [Memory.read, ha]
  · simp [Memory.read, Ne.symm ha]

/-- A read after a write of one byte: the byte written at its address, the old byte elsewhere. -/
theorem Memory.read_put {lo : Nat} {m : Memory} (h : Memory.wfFrom lo m = true) (a : Nat) (v : Byte) (b : Nat) :
    (m.put a v).read b = if b = a then v else m.read b := by
  induction m generalizing lo with
  | nil => exact Memory.read_consCell rfl v b
  | cons c m ih =>
    obtain ⟨k, w⟩ := c
    simp only [Memory.wfFrom, Bool.and_eq_true, decide_eq_true_eq] at h
    simp only [Memory.put]
    rcases Nat.lt_trichotomy a k with h1 | rfl | h1
    · rw [if_pos h1, Memory.read_consCell]
      simp only [Memory.wfFrom, Bool.and_eq_true, decide_eq_true_eq]
      exact ⟨⟨h1, h.1.2⟩, h.2⟩
    · rw [if_neg (Nat.lt_irrefl a), if_pos rfl, Memory.read_consCell h.2]
      by_cases hb : b = a
      · simp [hb]
      · simp [hb, Memory.read, Ne.symm hb]
    · rw [if_neg (by omega), if_neg (by omega)]
      simp only [Memory.read, ih h.2]
      by_cases hb : k = b
      · have : b ≠ a := by omega
        simp [hb, this]
      · simp [hb]

/-! ## The canonical form -/

theorem Memory.wfFrom_consCell {lo k : Nat} {m : Memory} (h : Memory.wfFrom (k + 1) m = true) (hl : lo ≤ k) (v : Byte) :
    Memory.wfFrom lo (Memory.consCell k v m) = true := by
  unfold Memory.consCell
  split_ifs with hv
  · exact Memory.wfFrom_mono h (by omega)
  · simp only [Memory.wfFrom, Bool.and_eq_true, decide_eq_true_eq]
    exact ⟨⟨hl, hv⟩, h⟩

theorem Memory.wfFrom_put {lo : Nat} {m : Memory} (h : Memory.wfFrom lo m = true) {a : Nat} (ha : lo ≤ a) (v : Byte) :
    Memory.wfFrom lo (m.put a v) = true := by
  induction m generalizing lo with
  | nil => exact Memory.wfFrom_consCell rfl ha v
  | cons c m ih =>
    obtain ⟨k, w⟩ := c
    simp only [Memory.wfFrom, Bool.and_eq_true, decide_eq_true_eq] at h
    simp only [Memory.put]
    split_ifs with h1 h2
    · apply Memory.wfFrom_consCell _ ha
      simp only [Memory.wfFrom, Bool.and_eq_true, decide_eq_true_eq]
      exact ⟨⟨h1, h.1.2⟩, h.2⟩
    · subst h2
      exact Memory.wfFrom_consCell h.2 ha v
    · simp only [Memory.wfFrom, Bool.and_eq_true, decide_eq_true_eq]
      exact ⟨h.1, ih h.2 (by omega)⟩

/-- Writing a byte keeps the canonical form. -/
theorem Memory.wf_put {m : Memory} (h : m.wf = true) (a : Nat) (v : Byte) : (m.put a v).wf = true :=
  Memory.wfFrom_put h (Nat.zero_le a) v

/-- Writing a word keeps the canonical form. -/
theorem Memory.wf_putWord {m : Memory} (h : m.wf = true) (a : Nat) (v : Word) : (m.putWord a v).wf = true :=
  Memory.wf_put (Memory.wf_put (Memory.wf_put (Memory.wf_put h _ _) _ _) _ _) _ _

theorem Memory.wfFrom_ofImage (a : Nat) (bs : List Byte) : Memory.wfFrom a (Memory.ofImage a bs) = true := by
  induction bs generalizing a with
  | nil => rfl
  | cons b bs ih => exact Memory.wfFrom_consCell (ih (a + 1)) (Nat.le_refl a) b

/-- The image load gives memory in canonical form. -/
theorem Memory.wf_ofImage (bs : List Byte) : (Memory.ofImage 0 bs).wf = true := Memory.wfFrom_ofImage 0 bs

/-- The reset memory is in canonical form. -/
theorem State.reset_mem_wf : State.reset.mem.wf = true := rfl

/-- The canonical form has one list for each content of memory. -/
theorem Memory.ext_read {lo : Nat} {m n : Memory} (hm : Memory.wfFrom lo m = true) (hn : Memory.wfFrom lo n = true)
    (h : ∀ a, m.read a = n.read a) : m = n := by
  induction m generalizing lo n with
  | nil =>
    cases n with
    | nil => rfl
    | cons d n =>
      obtain ⟨l, e⟩ := d
      simp only [Memory.wfFrom, Bool.and_eq_true, decide_eq_true_eq] at hn
      exact absurd (by simpa [Memory.read] using h l) (Ne.symm hn.1.2)
  | cons c m ih =>
    obtain ⟨k, b⟩ := c
    simp only [Memory.wfFrom, Bool.and_eq_true, decide_eq_true_eq] at hm
    cases n with
    | nil => exact absurd (by simpa [Memory.read] using h k) hm.1.2
    | cons d n =>
      obtain ⟨l, e⟩ := d
      simp only [Memory.wfFrom, Bool.and_eq_true, decide_eq_true_eq] at hn
      have hkl : k = l := by
        rcases Nat.lt_trichotomy k l with hlt | heq | hgt
        · have hk := h k
          have hne : l ≠ k := by omega
          simp only [Memory.read, if_true, hne, if_false, Memory.read_below hn.2 (show k < l + 1 by omega)] at hk
          exact absurd hk hm.1.2
        · exact heq
        · have hl := h l
          have hne : k ≠ l := by omega
          simp only [Memory.read, if_true, hne, if_false, Memory.read_below hm.2 (show l < k + 1 by omega)] at hl
          exact absurd hl.symm hn.1.2
      subst hkl
      have hbe : b = e := by simpa [Memory.read] using h k
      subst hbe
      congr 1
      refine ih hm.2 hn.2 fun a => ?_
      rcases Nat.lt_or_ge k a with hka | hak
      · have hne : k ≠ a := by omega
        simpa [Memory.read, hne] using h a
      · rw [Memory.read_below hm.2 (by omega), Memory.read_below hn.2 (by omega)]

/-! ## The range of addresses -/

theorem Memory.within_consCell {size k : Nat} {m : Memory} (h : m.within size = true) (hk : k < size) (v : Byte) :
    (Memory.consCell k v m).within size = true := by
  unfold Memory.consCell
  split_ifs
  · exact h
  · simpa [Memory.within, hk] using h

theorem Memory.within_put {size : Nat} {m : Memory} (h : m.within size = true) {a : Nat} (ha : a < size) (v : Byte) :
    (m.put a v).within size = true := by
  induction m with
  | nil => exact Memory.within_consCell rfl ha v
  | cons c m ih =>
    obtain ⟨k, w⟩ := c
    have hm : Memory.within size m = true := by
      simp only [Memory.within, List.all_cons, Bool.and_eq_true] at h
      exact h.2
    simp only [Memory.put]
    split_ifs with h1 h2
    · exact Memory.within_consCell h ha v
    · exact Memory.within_consCell hm ha v
    · simp only [Memory.within, List.all_cons, Bool.and_eq_true] at h ⊢
      exact ⟨h.1, ih hm⟩

theorem Memory.within_putWord {size : Nat} {m : Memory} (h : m.within size = true) {a : Nat} (ha : a + 3 < size)
    (v : Word) : (m.putWord a v).within size = true :=
  Memory.within_put (Memory.within_put (Memory.within_put (Memory.within_put h (by omega) _) (by omega) _)
    (by omega) _) (by omega) _

theorem Memory.within_ofImage {size a : Nat} {bs : List Byte} (h : a + bs.length ≤ size) :
    (Memory.ofImage a bs).within size = true := by
  induction bs generalizing a with
  | nil => rfl
  | cons b bs ih =>
    simp only [List.length_cons] at h
    exact Memory.within_consCell (ih (by omega)) (by omega) b

/-- R116: byte `i` of the image goes to address `i`; memory beyond it is 0. -/
theorem Memory.read_ofImage (a : Nat) (bs : List Byte) (k : Nat) :
    (Memory.ofImage a bs).read k = if k < a then 0 else bs.getD (k - a) 0 := by
  induction bs generalizing a with
  | nil => simp [Memory.ofImage, Memory.read]
  | cons b bs ih =>
    simp only [Memory.ofImage, Memory.read_consCell (Memory.wfFrom_ofImage (a + 1) bs), ih]
    by_cases h1 : k = a
    · subst h1; simp
    · by_cases h2 : k < a
      · have : k < a + 1 := by omega
        simp [h1, h2, this]
      · have h3 : ¬ k < a + 1 := by omega
        obtain ⟨d, rfl⟩ : ∃ d, k = a + 1 + d := ⟨k - (a + 1), by omega⟩
        have h4 : a + 1 + d - a = d + 1 := by omega
        rw [if_neg h1, if_neg h3, if_neg h2, h4, show a + 1 + d - (a + 1) = d by omega]
        rfl

/-! ## Words -/

/-- The bytes of memory after a word is put at `a` (R36). -/
theorem Memory.read_putWord {m : Memory} (h : m.wf = true) (a : Nat) (v : Word) (b : Nat) :
    (m.putWord a v).read b = if a ≤ b ∧ b < a + 4 then wordByte v (b - a) else m.read b := by
  have h1 := Memory.wf_put h a (wordByte v 0)
  have h2 := Memory.wf_put h1 (a + 1) (wordByte v 1)
  have h3 := Memory.wf_put h2 (a + 2) (wordByte v 2)
  simp only [Memory.putWord, Memory.read_put h3, Memory.read_put h2, Memory.read_put h1, Memory.read_put h]
  by_cases hb : a ≤ b ∧ b < a + 4
  · obtain ⟨d, rfl⟩ : ∃ d, b = a + d := ⟨b - a, by omega⟩
    have hd : d < 4 := by omega
    interval_cases d <;> simp
  · have e0 : b ≠ a := by omega
    have e1 : b ≠ a + 1 := by omega
    have e2 : b ≠ a + 2 := by omega
    have e3 : b ≠ a + 3 := by omega
    simp [hb, e0, e1, e2, e3]

/-- R35: the byte at `a+i` supplies bits `8i` to `8i+7` of the word. -/
theorem wordOfBytes_getLsbD (b0 b1 b2 b3 : Byte) (i : Nat) : (wordOfBytes b0 b1 b2 b3).getLsbD i =
    if i < 8 then b0.getLsbD i else if i < 16 then b1.getLsbD (i - 8)
    else if i < 24 then b2.getLsbD (i - 16) else b3.getLsbD (i - 24) := by
  unfold wordOfBytes
  rw [BitVec.getLsbD_append, BitVec.getLsbD_append, BitVec.getLsbD_append]
  by_cases h1 : i < 8
  · simp [h1]
  by_cases h2 : i < 16
  · have : i - 8 < 8 := by omega
    simp [h1, h2, this]
  have e1 : ¬ i - 8 < 8 := by omega
  by_cases h3 : i < 24
  · have e2 : i - 8 - 8 < 8 := by omega
    have e3 : i - 8 - 8 = i - 16 := by omega
    have e4 : i - 16 < 8 := by omega
    simp [h1, h2, h3, e1, e3, e4]
  · have e2 : ¬ i - 8 - 8 < 8 := by omega
    have e3 : i - 8 - 8 - 8 = i - 24 := by omega
    simp only [h1, h2, h3, e1, e2, e3, if_false]

/-- A word is its four bytes (R35, R36). -/
@[simp] theorem wordOfBytes_wordByte (v : Word) :
    wordOfBytes (wordByte v 0) (wordByte v 1) (wordByte v 2) (wordByte v 3) = v := by
  refine BitVec.eq_of_getLsbD_eq fun i hi => ?_
  rw [wordOfBytes_getLsbD]
  simp only [wordByte, BitVec.getLsbD_extractLsb']
  split_ifs with h1 h2 h3
  · simp [h1]
  · rw [show 8 * 1 + (i - 8) = i by omega]; simp [show i - 8 < 8 by omega]
  · rw [show 8 * 2 + (i - 16) = i by omega]; simp [show i - 16 < 8 by omega]
  · rw [show 8 * 3 + (i - 24) = i by omega]; simp [show i - 24 < 8 by omega]

/-- The word read after a word is put at the same address is the one put. -/
theorem Memory.wordAt_putWord {m : Memory} (h : m.wf = true) (a : Nat) (v : Word) :
    (m.putWord a v).wordAt a = v := by
  simp [Memory.wordAt, Memory.read_putWord h]

/-! ## The port -/

theorem inBounds_iff {size : Nat} {a : Word} : inBounds size a = true ↔ a.toNat + 3 < size := by
  simp only [inBounds, decide_eq_true_eq]
  omega

/-- Everything `memRead` can answer. -/
theorem memRead_cases (size : Nat) (m : Memory) (a : Word) :
    (a.toNat + 3 < size ∧ memRead size m a = some (m.wordAt a.toNat)) ∨
      (¬ a.toNat + 3 < size ∧ memRead size m a = none) := by
  unfold memRead
  by_cases h : inBounds size a = true
  · exact .inl ⟨inBounds_iff.1 h, by simp [h]⟩
  · exact .inr ⟨fun hh => h (inBounds_iff.2 hh), by simp [h]⟩

/-- Everything `memWrite` can answer. -/
theorem memWrite_cases (size : Nat) (m : Memory) (a v : Word) :
    (a.toNat + 3 < size ∧ memWrite size m a v = some (m.putWord a.toNat v)) ∨
      (¬ a.toNat + 3 < size ∧ memWrite size m a v = none) := by
  unfold memWrite
  by_cases h : inBounds size a = true
  · exact .inl ⟨inBounds_iff.1 h, by simp [h]⟩
  · exact .inr ⟨fun hh => h (inBounds_iff.2 hh), by simp [h]⟩

/-- A write through the port keeps the canonical form and the range of addresses. -/
theorem memWrite_keeps {size : Nat} {m m' : Memory} {a v : Word} (h : memWrite size m a v = some m')
    (hw : m.wf = true) (hi : m.within size = true) : m'.wf = true ∧ m'.within size = true := by
  rcases memWrite_cases size m a v with ⟨hb, e⟩ | ⟨_, e⟩
  · obtain rfl : m.putWord a.toNat v = m' := by simpa [e] using h
    exact ⟨Memory.wf_putWord hw _ _, Memory.within_putWord hi hb _⟩
  · simp [e] at h

end Sys2Proof.Machine
end

