-- ==== Sys2Proof/Laws/State.lean ====
section
/-! SUPPORT. One lemma per field per update of State, and what reading a register after an update gives. -/

namespace Sys2Proof.Machine

variable (s : State)

@[simp] theorem State.setReg_lr (r : Reg) (v : Word) : (s.setReg r v).lr = s.lr := rfl
@[simp] theorem State.setReg_pc (r : Reg) (v : Word) : (s.setReg r v).pc = s.pc := rfl
@[simp] theorem State.setReg_mem (r : Reg) (v : Word) : (s.setReg r v).mem = s.mem := rfl
@[simp] theorem State.setReg_status (r : Reg) (v : Word) : (s.setReg r v).status = s.status := rfl

@[simp] theorem State.setPc_x (v : Word) : (s.setPc v).x = s.x := rfl
@[simp] theorem State.setPc_lr (v : Word) : (s.setPc v).lr = s.lr := rfl
@[simp] theorem State.setPc_pc (v : Word) : (s.setPc v).pc = v := rfl
@[simp] theorem State.setPc_mem (v : Word) : (s.setPc v).mem = s.mem := rfl
@[simp] theorem State.setPc_status (v : Word) : (s.setPc v).status = s.status := rfl
@[simp] theorem State.setPc_reg (v : Word) (q : Reg) : (s.setPc v).reg q = s.reg q := rfl

@[simp] theorem State.setLr_x (v : Word) : (s.setLr v).x = s.x := rfl
@[simp] theorem State.setLr_lr (v : Word) : (s.setLr v).lr = v := rfl
@[simp] theorem State.setLr_pc (v : Word) : (s.setLr v).pc = s.pc := rfl
@[simp] theorem State.setLr_mem (v : Word) : (s.setLr v).mem = s.mem := rfl
@[simp] theorem State.setLr_status (v : Word) : (s.setLr v).status = s.status := rfl
@[simp] theorem State.setLr_reg (v : Word) (q : Reg) : (s.setLr v).reg q = s.reg q := rfl

@[simp] theorem State.setMem_x (m : Memory) : (s.setMem m).x = s.x := rfl
@[simp] theorem State.setMem_lr (m : Memory) : (s.setMem m).lr = s.lr := rfl
@[simp] theorem State.setMem_pc (m : Memory) : (s.setMem m).pc = s.pc := rfl
@[simp] theorem State.setMem_mem (m : Memory) : (s.setMem m).mem = m := rfl
@[simp] theorem State.setMem_status (m : Memory) : (s.setMem m).status = s.status := rfl
@[simp] theorem State.setMem_reg (m : Memory) (q : Reg) : (s.setMem m).reg q = s.reg q := rfl

@[simp] theorem State.raise_x (info : FatalInfo) : (s.raise info).x = s.x := rfl
@[simp] theorem State.raise_lr (info : FatalInfo) : (s.raise info).lr = s.lr := rfl
@[simp] theorem State.raise_pc (info : FatalInfo) : (s.raise info).pc = s.pc := rfl
@[simp] theorem State.raise_mem (info : FatalInfo) : (s.raise info).mem = s.mem := rfl
@[simp] theorem State.raise_status (info : FatalInfo) : (s.raise info).status = .fatal info := rfl
@[simp] theorem State.raise_reg (info : FatalInfo) (q : Reg) : (s.raise info).reg q = s.reg q := rfl

/-- Reading a register after a write, whatever the indices are (R19). -/
theorem State.setReg_reg (r q : Reg) (v : Word) :
    (s.setReg r v).reg q = if q = r then v else s.reg q := by
  simp only [State.reg, State.setReg, Vector.getElem_set, BitVec.toNat_inj, eq_comm]

@[simp] theorem State.setReg_reg_same (r : Reg) (v : Word) : (s.setReg r v).reg r = v := by
  simp [State.setReg_reg]

theorem State.setReg_reg_other {r q : Reg} (h : q ≠ r) (v : Word) : (s.setReg r v).reg q = s.reg q := by
  simp [State.setReg_reg, h]

@[simp] theorem State.advance_x : s.advance.x = s.x := rfl
@[simp] theorem State.advance_lr : s.advance.lr = s.lr := rfl
@[simp] theorem State.advance_mem : s.advance.mem = s.mem := rfl
@[simp] theorem State.advance_status : s.advance.status = s.status := rfl
@[simp] theorem State.advance_pc : s.advance.pc = s.pc + 4 := rfl
@[simp] theorem State.advance_reg (q : Reg) : s.advance.reg q = s.reg q := rfl

/-- After the fetch advance, `ipc` is the address the word was fetched from (R100, R101). -/
@[simp] theorem State.advance_ipc : s.advance.ipc = s.pc := by
  simp [State.ipc]

/-! Entering FATAL: the status is the record, all else as it was (R99). -/

@[simp] theorem State.raiseFetch_x : (s.raiseFetch).x = s.x := rfl
@[simp] theorem State.raiseFetch_lr : (s.raiseFetch).lr = s.lr := rfl
@[simp] theorem State.raiseFetch_pc : (s.raiseFetch).pc = s.pc := rfl
@[simp] theorem State.raiseFetch_mem : (s.raiseFetch).mem = s.mem := rfl
@[simp] theorem State.raiseFetch_reg (q : Reg) : (s.raiseFetch).reg q = s.reg q := rfl
@[simp] theorem State.raiseFetch_status :
    (s.raiseFetch).status = .fatal (.memoryBoundsFatal .fetch s.pc s.pc) := rfl

@[simp] theorem State.raiseDecode_x (w : Word) : (s.raiseDecode w).x = s.x := rfl
@[simp] theorem State.raiseDecode_lr (w : Word) : (s.raiseDecode w).lr = s.lr := rfl
@[simp] theorem State.raiseDecode_pc (w : Word) : (s.raiseDecode w).pc = s.pc := rfl
@[simp] theorem State.raiseDecode_mem (w : Word) : (s.raiseDecode w).mem = s.mem := rfl
@[simp] theorem State.raiseDecode_reg (w : Word) (q : Reg) : (s.raiseDecode w).reg q = s.reg q := rfl
@[simp] theorem State.raiseDecode_status (w : Word) :
    (s.raiseDecode w).status = .fatal (.decodeFatal s.ipc w (fieldsOf w).opcode (fieldsOf w).funct) := rfl

@[simp] theorem State.raiseAccess_x (acc : Access) (a : Word) : (s.raiseAccess acc a).x = s.x := rfl
@[simp] theorem State.raiseAccess_lr (acc : Access) (a : Word) : (s.raiseAccess acc a).lr = s.lr := rfl
@[simp] theorem State.raiseAccess_pc (acc : Access) (a : Word) : (s.raiseAccess acc a).pc = s.pc := rfl
@[simp] theorem State.raiseAccess_mem (acc : Access) (a : Word) : (s.raiseAccess acc a).mem = s.mem := rfl
@[simp] theorem State.raiseAccess_reg (acc : Access) (a : Word) (q : Reg) : (s.raiseAccess acc a).reg q = s.reg q := rfl
@[simp] theorem State.raiseAccess_status (acc : Access) (a : Word) :
    (s.raiseAccess acc a).status = .fatal (.memoryBoundsFatal acc a s.ipc) := rfl

@[simp] theorem State.reset_reg (q : Reg) : State.reset.reg q = 0 := by
  simp [State.reg, State.reset]

/-- Two states with the same registers and the same other fields are the same state. -/
theorem State.ext_reg {s t : State} (hx : ∀ r, t.reg r = s.reg r) (hl : t.lr = s.lr) (hp : t.pc = s.pc)
    (hm : t.mem = s.mem) (hs : t.status = s.status) : t = s := by
  have hv : t.x = s.x := by
    refine Vector.ext fun k hk => ?_
    simpa [State.reg, Nat.mod_eq_of_lt hk] using hx (BitVec.ofNat 5 k)
  cases s; cases t; simp_all

end Sys2Proof.Machine
end

