-- ==== Sys2Proof/Laws/Machine.lean ====
section
/-! SUPPORT. Everything each shared operation, an instruction and a step can answer. -/

namespace Sys2Proof.Machine

variable (p : Params) (s : State)

/-- Everything a load can do (R89): write the word read to `rt`, or enter FATAL. -/
theorem loadWord_cases (rt rs : Reg) (imm : BitVec 16) :
    (eaAllowed p.eaWrap (s.reg rs) imm = true ∧ (eaWord (s.reg rs) imm).toNat + 3 < p.memSize ∧
      loadWord p rt rs imm s =
        .next (s.setReg rt (s.mem.wordAt (eaWord (s.reg rs) imm).toNat))) ∨
    ((eaAllowed p.eaWrap (s.reg rs) imm = false ∨ ¬ (eaWord (s.reg rs) imm).toNat + 3 < p.memSize) ∧
      loadWord p rt rs imm s = .next (s.raiseAccess .load (eaWord (s.reg rs) imm))) := by
  unfold loadWord
  cases ha : eaAllowed p.eaWrap (s.reg rs) imm
  · exact .inr ⟨.inl rfl, by simp⟩
  · rcases memRead_cases p.memSize s.mem (eaWord (s.reg rs) imm) with ⟨hb, hr⟩ | ⟨hb, hr⟩
    · exact .inl ⟨rfl, hb, by simp [hr, writeBack]⟩
    · exact .inr ⟨.inr hb, by simp [hr]⟩

/-- Everything a store can do (R90): write the four bytes, or enter FATAL. -/
theorem storeWord_cases (rt rs : Reg) (imm : BitVec 16) :
    (eaAllowed p.eaWrap (s.reg rs) imm = true ∧ (eaWord (s.reg rs) imm).toNat + 3 < p.memSize ∧
      storeWord p rt rs imm s =
        .next (s.setMem (s.mem.putWord (eaWord (s.reg rs) imm).toNat (s.reg rt)))) ∨
    ((eaAllowed p.eaWrap (s.reg rs) imm = false ∨ ¬ (eaWord (s.reg rs) imm).toNat + 3 < p.memSize) ∧
      storeWord p rt rs imm s = .next (s.raiseAccess .store (eaWord (s.reg rs) imm))) := by
  unfold storeWord
  cases ha : eaAllowed p.eaWrap (s.reg rs) imm
  · exact .inr ⟨.inl rfl, by simp⟩
  · rcases memWrite_cases p.memSize s.mem (eaWord (s.reg rs) imm) (s.reg rt) with ⟨hb, hr⟩ | ⟨hb, hr⟩
    · exact .inl ⟨rfl, hb, by simp [hr]⟩
    · exact .inr ⟨.inr hb, by simp [hr]⟩

/-- A branch only sets `pc`, to its target or to what it was (R69). -/
theorem branchIf_eq (taken : Bool) (imm : BitVec 16) :
    branchIf taken imm s = .next (s.setPc (if taken then branchTarget s.pc imm else s.pc)) := by
  cases taken <;> rfl

/-- Everything a step of the engine can do, from any state (R63, R64, R70, R99). -/
theorem stepWith_cases (ex : Instr → State → Answer) :
    (∃ info, s.status = .fatal info ∧ stepWith p ex s = .fault (.engineInFatal info)) ∨
    (s.status = .running ∧ ¬ s.pc.toNat + 3 < p.memSize ∧ stepWith p ex s = .next s.raiseFetch) ∨
    (s.status = .running ∧ s.pc.toNat + 3 < p.memSize ∧
      (∃ e, decode p.functMap (s.mem.wordAt s.pc.toNat) = .error e) ∧
      stepWith p ex s = .next (s.advance.raiseDecode (s.mem.wordAt s.pc.toNat))) ∨
    (s.status = .running ∧ s.pc.toNat + 3 < p.memSize ∧
      ∃ i, decode p.functMap (s.mem.wordAt s.pc.toNat) = .ok i ∧ stepWith p ex s = ex i s.advance) := by
  unfold stepWith
  cases hs : s.status with
  | fatal info => exact .inl ⟨info, rfl, rfl⟩
  | running =>
    right
    simp only [cycle, fetch]
    rcases memRead_cases p.memSize s.mem s.pc with ⟨hb, hr⟩ | ⟨hb, hr⟩
    · right
      simp only [hr, dispatch]
      cases hd : decode p.functMap (s.mem.wordAt s.pc.toNat) with
      | error e => exact .inl ⟨trivial, hb, ⟨e, rfl⟩, rfl⟩
      | ok i => exact .inr ⟨trivial, hb, i, rfl, rfl⟩
    · exact .inl ⟨trivial, hb, by simp [hr]⟩

/-- Every instruction answers a next state, from every state: no instruction stops the machine by itself, and
FATAL is entered as a next state (R99). -/
theorem exec_answers (i : Instr) : ∃ t, exec i s = .next t := by
  cases i with
  | beq rs rt imm => exact ⟨_, branchIf_eq s _ imm⟩
  | bne rs rt imm => exact ⟨_, branchIf_eq s _ imm⟩
  | lw rt rs imm =>
    rcases loadWord_cases Config.params s rt rs imm with ⟨_, _, h⟩ | ⟨_, h⟩
    · exact ⟨_, h⟩
    · exact ⟨_, h⟩
  | sw rt rs imm =>
    rcases storeWord_cases Config.params s rt rs imm with ⟨_, _, h⟩ | ⟨_, h⟩
    · exact ⟨_, h⟩
    · exact ⟨_, h⟩
  | add | sub | and | or | xor | nor | slt | sll | srl | sra | addi | andi | ori | xori | slti | j | jal | jr =>
    exact ⟨_, rfl⟩

/-- A result only goes to its register (R69). -/
theorem writeBack_eq (r : Reg) (v : Word) : writeBack r v s = .next (s.setReg r v) := rfl

/-- Only a load or a store can change the status, and then only by entering FATAL: no register, LR, pc or memory is
changed with it (R99, R103, R104). -/
theorem exec_status {i : Instr} {t : State} (h : exec i s = .next t) :
    t.status = s.status ∨ ∃ acc a, acc ≠ .fetch ∧ t = s.raiseAccess acc a := by
  cases i with
  | lw rt rs imm =>
    rcases loadWord_cases Config.params s rt rs imm with ⟨_, _, h'⟩ | ⟨_, h'⟩ <;>
      (simp only [exec, execLw, h', Host.Outcome.next.injEq] at h; subst h)
    · exact .inl rfl
    · exact .inr ⟨.load, _, by decide, rfl⟩
  | sw rt rs imm =>
    rcases storeWord_cases Config.params s rt rs imm with ⟨_, _, h'⟩ | ⟨_, h'⟩ <;>
      (simp only [exec, execSw, h', Host.Outcome.next.injEq] at h; subst h)
    · exact .inl rfl
    · exact .inr ⟨.store, _, by decide, rfl⟩
  | beq rs rt imm => simp only [exec, execBeq, branchIf_eq, Host.Outcome.next.injEq] at h; subst h; exact .inl rfl
  | bne rs rt imm => simp only [exec, execBne, branchIf_eq, Host.Outcome.next.injEq] at h; subst h; exact .inl rfl
  | add | sub | and | or | xor | nor | slt | sll | srl | sra | addi | andi | ori | xori | slti | j | jal | jr =>
    cases h; exact .inl rfl

/-- A word placed at an in-bounds pc is the one the next step runs (log entry 7). -/
theorem stepWith_placeWord {w : Word} {i : Instr} (ex : Instr → State → Answer) (hw : s.mem.wf = true)
    (hb : inBounds p.memSize s.pc = true) (hd : decode p.functMap w = .ok i) :
    ∃ t, placeWord p s w = t ∧ t.status = .running ∧ t.pc = s.pc ∧ stepWith p ex t = ex i t.advance := by
  refine ⟨_, rfl, ?_⟩
  simp [placeWord, memWrite, hb, stepWith, cycle, fetch, memRead, Memory.wordAt_putWord hw, dispatch, hd]

end Sys2Proof.Machine
end

