-- ==== Sys2Proof/Laws/Core.lean ====
section
/-! SUPPORT. Runs of the machine behind the host's interface, one step at a time. -/

namespace Sys2Proof.Machine

theorem run_zero (s : State) : Host.Core.run core 0 s = .next s := rfl

theorem run_of_next {s t : State} (h : step s = .next t) (n : Nat) :
    Host.Core.run core (n + 1) s = Host.Core.run core n t := by
  have h' : core.step s = .next t := h
  simp only [Host.Core.run, h']

theorem run_of_fault {s : State} {f : Fault} (h : step s = .fault f) (n : Nat) :
    Host.Core.run core (n + 1) s = .fault f := by
  have h' : core.step s = .fault f := h
  simp only [Host.Core.run, h']

/-- A FATAL state has no run of one or more steps (R63, R99). -/
theorem run_of_fatal {s : State} {info : FatalInfo} (h : s.status = .fatal info) (n : Nat) :
    Host.Core.run core (n + 1) s = .fault (.engineInFatal info) := by
  apply run_of_fault
  simp [step, stepWith, h]

end Sys2Proof.Machine
end

