-- ==== Sys2Proof/Laws/Decode.lean ====
section
/-! SUPPORT. The fields of an encoded word (30_encoding.md R48 to R51), and the codes a well-formed
`FUNCT_MAP` gives. -/

namespace Sys2Proof

variable (rs rt rd : Reg) (sa : BitVec 5) (funct : BitVec 6) (opcode : BitVec 6) (imm : BitVec 16)
  (target : BitVec 26)

@[simp] theorem encodeR_opcode : (fieldsOf (encodeR rs rt rd sa funct)).opcode = 0 := by
  simp only [fieldsOf, encodeR]
  rw [BitVec.extractLsb'_append_eq_of_le (by decide),
    BitVec.extractLsb'_append_eq_of_le (by decide),
    BitVec.extractLsb'_append_eq_of_le (by decide),
    BitVec.extractLsb'_append_eq_of_le (by decide),
    BitVec.extractLsb'_append_eq_of_le (by decide)]
  exact BitVec.extractLsb'_eq_self

@[simp] theorem encodeR_rs : (fieldsOf (encodeR rs rt rd sa funct)).rs = rs := by
  simp only [fieldsOf, encodeR]
  rw [BitVec.extractLsb'_append_eq_of_le (by decide),
    BitVec.extractLsb'_append_eq_of_le (by decide),
    BitVec.extractLsb'_append_eq_of_le (by decide),
    BitVec.extractLsb'_append_eq_of_le (by decide),
    BitVec.extractLsb'_append_eq_of_add_le (by decide)]
  exact BitVec.extractLsb'_eq_self

@[simp] theorem encodeR_rt : (fieldsOf (encodeR rs rt rd sa funct)).rt = rt := by
  simp only [fieldsOf, encodeR]
  rw [BitVec.extractLsb'_append_eq_of_le (by decide),
    BitVec.extractLsb'_append_eq_of_le (by decide),
    BitVec.extractLsb'_append_eq_of_le (by decide),
    BitVec.extractLsb'_append_eq_of_add_le (by decide)]
  exact BitVec.extractLsb'_eq_self

@[simp] theorem encodeR_rd : (fieldsOf (encodeR rs rt rd sa funct)).rd = rd := by
  simp only [fieldsOf, encodeR]
  rw [BitVec.extractLsb'_append_eq_of_le (by decide),
    BitVec.extractLsb'_append_eq_of_le (by decide),
    BitVec.extractLsb'_append_eq_of_add_le (by decide)]
  exact BitVec.extractLsb'_eq_self

@[simp] theorem encodeR_sa : (fieldsOf (encodeR rs rt rd sa funct)).sa = sa := by
  simp only [fieldsOf, encodeR]
  rw [BitVec.extractLsb'_append_eq_of_le (by decide),
    BitVec.extractLsb'_append_eq_of_add_le (by decide)]
  exact BitVec.extractLsb'_eq_self

@[simp] theorem encodeR_funct : (fieldsOf (encodeR rs rt rd sa funct)).funct = funct := by
  simp only [fieldsOf, encodeR]
  rw [BitVec.extractLsb'_append_eq_of_add_le (by decide)]
  exact BitVec.extractLsb'_eq_self

@[simp] theorem encodeI_opcode : (fieldsOf (encodeI opcode rs rt imm)).opcode = opcode := by
  simp only [fieldsOf, encodeI]
  rw [BitVec.extractLsb'_append_eq_of_le (by decide),
    BitVec.extractLsb'_append_eq_of_le (by decide),
    BitVec.extractLsb'_append_eq_of_le (by decide)]
  exact BitVec.extractLsb'_eq_self

@[simp] theorem encodeI_rs : (fieldsOf (encodeI opcode rs rt imm)).rs = rs := by
  simp only [fieldsOf, encodeI]
  rw [BitVec.extractLsb'_append_eq_of_le (by decide),
    BitVec.extractLsb'_append_eq_of_le (by decide),
    BitVec.extractLsb'_append_eq_of_add_le (by decide)]
  exact BitVec.extractLsb'_eq_self

@[simp] theorem encodeI_rt : (fieldsOf (encodeI opcode rs rt imm)).rt = rt := by
  simp only [fieldsOf, encodeI]
  rw [BitVec.extractLsb'_append_eq_of_le (by decide),
    BitVec.extractLsb'_append_eq_of_add_le (by decide)]
  exact BitVec.extractLsb'_eq_self

@[simp] theorem encodeI_imm : (fieldsOf (encodeI opcode rs rt imm)).imm = imm := by
  simp only [fieldsOf, encodeI]
  rw [BitVec.extractLsb'_append_eq_of_add_le (by decide)]
  exact BitVec.extractLsb'_eq_self

@[simp] theorem encodeJ_opcode : (fieldsOf (encodeJ opcode target)).opcode = opcode := by
  simp only [fieldsOf, encodeJ]
  rw [BitVec.extractLsb'_append_eq_of_le (by decide)]
  exact BitVec.extractLsb'_eq_self

@[simp] theorem encodeJ_target : (fieldsOf (encodeJ opcode target)).target = target := by
  simp only [fieldsOf, encodeJ]
  rw [BitVec.extractLsb'_append_eq_of_add_le (by decide)]
  exact BitVec.extractLsb'_eq_self

/-- R48: the opcode field, as `definedWord` spells it. -/
theorem definedWord_eq (fm : FunctMap) (w : Word) :
    definedWord fm w = (decide ((fieldsOf w).opcode ∈ primaryOpcodes) ||
      (decide ((fieldsOf w).opcode = 0x00#6) && decide ((fieldsOf w).funct ∈ fm.values))) := rfl

/-- R57: `sll` is fixed at 0x00 and the eleven values differ. -/
theorem FunctMap.wf_iff {fm : FunctMap} : fm.wf = true ↔ fm.sll = 0x00#6 ∧ fm.values.Nodup := by
  simp [FunctMap.wf]

/-- The default `FUNCT_MAP` meets R57, and the hardware's parameters R10. -/
theorem Config.defaultFunctMap_wf : Config.defaultFunctMap.wf = true := by decide

end Sys2Proof
end

