-- ==== Sys2Proof/Laws/HostPort.lean ====
section
/-! SUPPORT. Everything a reset can answer (R102, R115, R116). -/

namespace Sys2Proof.Machine

theorem hostReset_cases (size : Nat) (image : List Byte) (s : State) :
    (image.length ≤ size ∧ hostReset size image s = .started (State.reset.setMem (Memory.ofImage 0 image))) ∨
      (size < image.length ∧ hostReset size image s = .loadFatal) := by
  unfold hostReset
  split_ifs with h
  · exact .inl ⟨h, rfl⟩
  · exact .inr ⟨by omega, rfl⟩

end Sys2Proof.Machine
end

