-- ==== Sys2Proof/Laws/Operands.lean ====
section
/-! SUPPORT. What the operand forms are as numbers and bits. -/

namespace Sys2Proof.Machine

/-- `sext_32` keeps the signed value (R14). -/
@[simp] theorem sext32_toInt (imm : BitVec 16) : (sext32 imm).toInt = imm.toInt := by
  simp [sext32, BitVec.toInt_signExtend_of_le]

/-- `sext_32` as an unsigned number. -/
theorem sext32_toNat (imm : BitVec 16) : ((sext32 imm).toNat : Int) = imm.toInt % 2 ^ 32 := by
  rw [← sext32_toInt imm, BitVec.toInt_eq_toNat_cond]
  have := (sext32 imm).isLt
  split_ifs <;> omega

/-- `zext_32` keeps the bits of the immediate and has zeros above (R14). -/
theorem zext32_getLsbD (imm : BitVec 16) (k : Nat) : (zext32 imm).getLsbD k = (decide (k < 16) && imm.getLsbD k) := by
  by_cases h : k < 16
  · have : k < 32 := by omega
    simp [zext32, h, this]
  · simp [zext32, h, BitVec.getLsbD_of_ge imm k (by omega)]

/-- Adding a sign-extended immediate, as unsigned numbers modulo 2^32. -/
theorem add_sext32_toNat (a : Word) (imm : BitVec 16) :
    ((a + sext32 imm).toNat : Int) = ((a.toNat : Int) + imm.toInt) % 2 ^ 32 := by
  have h := sext32_toNat imm
  rw [BitVec.toNat_add]
  omega

end Sys2Proof.Machine
end

