-- ==== Sys2Proof/Laws/Parametric.lean ====
section
/-! SUPPORT. The machine is the parametric machine at the hardware's parameter values (00_scope.md R10, R11). -/

namespace Sys2Proof.Machine

theorem exec_eq_execUnder (i : Instr) (s : State) : exec i s = execUnder Config.params i s := by
  cases i <;> rfl

theorem step_eq_stepUnder (s : State) : step s = stepUnder Config.params s := by
  have h : exec = execUnder Config.params := funext fun i => funext fun s => exec_eq_execUnder i s
  rw [step, stepUnder, h]

end Sys2Proof.Machine
end

