-- ==== Sys2Proof/Laws/PerInstr.lean ====
section
/-! SUPPORT. The family `Encodes`: the word of every instruction is one of the words 30_encoding.md R58 calls
instructions, under every `FUNCT_MAP`. -/

namespace Sys2Proof.Laws.Encodes

/-- R58: the word the encoder gives is defined. -/
def Statement (i : Instr) : Prop := ∀ fm : FunctMap, definedWord fm (encode fm i) = true

theorem ofR (fm : FunctMap) (rs rt rd : Reg) (sa : BitVec 5) {f : BitVec 6} (h : f ∈ fm.values) :
    definedWord fm (encodeR rs rt rd sa f) = true := by
  simp [definedWord_eq, h]

theorem ofI (fm : FunctMap) (rs rt : Reg) (imm : BitVec 16) {op : BitVec 6} (h : op ∈ primaryOpcodes) :
    definedWord fm (encodeI op rs rt imm) = true := by
  simp [definedWord_eq, h]

theorem ofJ (fm : FunctMap) (target : BitVec 26) {op : BitVec 6} (h : op ∈ primaryOpcodes) :
    definedWord fm (encodeJ op target) = true := by
  simp [definedWord_eq, h]

theorem add (rd rs rt : Reg) : Statement (.add rd rs rt) := fun fm => ofR fm _ _ _ _ (by simp [FunctMap.values])

theorem sub (rd rs rt : Reg) : Statement (.sub rd rs rt) := fun fm => ofR fm _ _ _ _ (by simp [FunctMap.values])

theorem and (rd rs rt : Reg) : Statement (.and rd rs rt) := fun fm => ofR fm _ _ _ _ (by simp [FunctMap.values])

theorem or (rd rs rt : Reg) : Statement (.or rd rs rt) := fun fm => ofR fm _ _ _ _ (by simp [FunctMap.values])

theorem xor (rd rs rt : Reg) : Statement (.xor rd rs rt) := fun fm => ofR fm _ _ _ _ (by simp [FunctMap.values])

theorem nor (rd rs rt : Reg) : Statement (.nor rd rs rt) := fun fm => ofR fm _ _ _ _ (by simp [FunctMap.values])

theorem slt (rd rs rt : Reg) : Statement (.slt rd rs rt) := fun fm => ofR fm _ _ _ _ (by simp [FunctMap.values])

theorem sll (rd rt : Reg) (sa : BitVec 5) : Statement (.sll rd rt sa) := fun fm => ofR fm _ _ _ _ (by simp [FunctMap.values])

theorem srl (rd rt : Reg) (sa : BitVec 5) : Statement (.srl rd rt sa) := fun fm => ofR fm _ _ _ _ (by simp [FunctMap.values])

theorem sra (rd rt : Reg) (sa : BitVec 5) : Statement (.sra rd rt sa) := fun fm => ofR fm _ _ _ _ (by simp [FunctMap.values])

theorem addi (rt rs : Reg) (imm : BitVec 16) : Statement (.addi rt rs imm) := fun fm => ofI fm _ _ _ (by decide)

theorem andi (rt rs : Reg) (imm : BitVec 16) : Statement (.andi rt rs imm) := fun fm => ofI fm _ _ _ (by decide)

theorem ori (rt rs : Reg) (imm : BitVec 16) : Statement (.ori rt rs imm) := fun fm => ofI fm _ _ _ (by decide)

theorem xori (rt rs : Reg) (imm : BitVec 16) : Statement (.xori rt rs imm) := fun fm => ofI fm _ _ _ (by decide)

theorem slti (rt rs : Reg) (imm : BitVec 16) : Statement (.slti rt rs imm) := fun fm => ofI fm _ _ _ (by decide)

theorem lw (rt rs : Reg) (imm : BitVec 16) : Statement (.lw rt rs imm) := fun fm => ofI fm _ _ _ (by decide)

theorem sw (rt rs : Reg) (imm : BitVec 16) : Statement (.sw rt rs imm) := fun fm => ofI fm _ _ _ (by decide)

theorem beq (rs rt : Reg) (imm : BitVec 16) : Statement (.beq rs rt imm) := fun fm => ofI fm _ _ _ (by decide)

theorem bne (rs rt : Reg) (imm : BitVec 16) : Statement (.bne rs rt imm) := fun fm => ofI fm _ _ _ (by decide)

theorem j (target : BitVec 26) : Statement (.j target) := fun fm => ofJ fm _ (by decide)

theorem jal (target : BitVec 26) : Statement (.jal target) := fun fm => ofJ fm _ (by decide)

theorem jr (rs : Reg) : Statement (.jr rs) := fun fm => ofR fm _ _ _ _ (by simp [FunctMap.values])

end Sys2Proof.Laws.Encodes
end

