-- ==== Sys2Proof/Tests/Slice0.lean ====
section
/-! SUPPORT. The model's own tests. Expected values are those of 95_test_vectors.md, or worked out by hand from
the rule a test names. -/

namespace Sys2Proof.Tests

open Sys2Proof.Machine

/-! ## Helpers -/

/-- Registers set one after the other on the reset state. -/
def setRegs : List (Reg × Word) → State → State
  | [], s => s
  | (r, v) :: rs, s => setRegs rs (s.setReg r v)

/-- Words stored in an empty memory. -/
def wordsAt : List (Nat × Word) → Memory
  | [] => []
  | (a, w) :: ws => (wordsAt ws).putWord a w

/-- A Running state with these registers, this pc and these words in memory. -/
def st (regs : List (Reg × Word)) (pc : Word) (words : List (Nat × Word)) : State :=
  { setRegs regs State.reset with pc := pc, mem := wordsAt words }

/-- The next state, if there is one. -/
def after : Answer → Option State
  | .next t => some t
  | .fault _ => none
  | .refused _ => none

/-- Register `r` after one step. -/
def regAfter (r : Reg) (s : State) : Option Word := (after (step s)).map fun t => t.reg r

/-- pc after one step. -/
def pcAfter (s : State) : Option Word := (after (step s)).map State.pc

/-- LR after one step. -/
def lrAfter (s : State) : Option Word := (after (step s)).map State.lr

/-- The status after one step. -/
def statusAfter (s : State) : Option Status := (after (step s)).map State.status

/-- Register `r` after one step under other parameters. -/
def regAfterUnder (p : Params) (r : Reg) (s : State) : Option Word := (after (stepUnder p s)).map fun t => t.reg r

/-! ## What is ill formed is refused -/

theorem test_functMap_default_wf : Config.defaultFunctMap.wf = true := by decide
theorem test_functMap_sll_moved : ({ Config.defaultFunctMap with sll := 0x01 }).wf = false := by decide
theorem test_functMap_not_injective : ({ Config.defaultFunctMap with add := 0x22 }).wf = false := by decide
theorem test_params_default_wf : Config.params.wf = true := by decide
theorem test_params_memory_too_small : ({ Config.params with memSize := 3 }).wf = false := by decide
theorem test_params_memory_too_large : ({ Config.params with memSize := 2 ^ 32 + 1 }).wf = false := by decide
theorem test_params_functMap : ({ Config.params with functMap := { Config.defaultFunctMap with jr := 0 } }).wf = false := by
  decide
theorem test_word_undefined_opcode : definedWord Config.defaultFunctMap 0x3C011234 = false := by decide
theorem test_word_undefined_funct : definedWord Config.defaultFunctMap 0x00221821 = false := by decide
theorem test_asm_register_32 : (Asm.reg .add 32 1 2).wf = false := by decide
theorem test_asm_shift_32 : (Asm.shift .sll 1 2 32).wf = false := by decide
theorem test_asm_jr_32 : (Asm.jr 32).wf = false := by decide
theorem test_asm_immediate_65536 : (Asm.imm .ori 1 2 65536).wf = false := by decide
theorem test_asm_offset_32768 : (Asm.branch .beq 1 2 32768).wf = false := by decide
theorem test_asm_displacement_low : (Asm.mem .lw 1 (-32769) 2).wf = false := by decide
theorem test_asm_target_27_bits : (Asm.jump .j (2 ^ 26)).wf = false := by decide

/-! ## Decoding: words of 95_test_vectors.md and of R73 to R95, laid out as memory holds them -/

theorem test_decode_add : decodeTableWord 32 0x00221820 = some (.add 3 1 2) := by decide
theorem test_decode_sub : decodeTableWord 32 0x00221822 = some (.sub 3 1 2) := by decide
theorem test_decode_and : decodeTableWord 32 0x00221824 = some (.and 3 1 2) := by decide
theorem test_decode_or : decodeTableWord 32 0x00221825 = some (.or 3 1 2) := by decide
theorem test_decode_xor : decodeTableWord 32 0x00221826 = some (.xor 3 1 2) := by decide
theorem test_decode_nor : decodeTableWord 32 0x00221827 = some (.nor 3 1 2) := by decide
theorem test_decode_slt : decodeTableWord 32 0x0022182A = some (.slt 3 1 2) := by decide
theorem test_decode_sll : decodeTableWord 32 0x00021900 = some (.sll 3 2 4) := by decide
theorem test_decode_srl : decodeTableWord 32 0x00021FC2 = some (.srl 3 2 31) := by decide
theorem test_decode_sra : decodeTableWord 32 0x00021FC3 = some (.sra 3 2 31) := by decide
theorem test_decode_addi : decodeTableWord 32 0x2022FFFF = some (.addi 2 1 0xFFFF) := by decide
theorem test_decode_andi : decodeTableWord 32 0x30228000 = some (.andi 2 1 0x8000) := by decide
theorem test_decode_ori : decodeTableWord 32 0x34228000 = some (.ori 2 1 0x8000) := by decide
theorem test_decode_xori : decodeTableWord 32 0x3822FFFF = some (.xori 2 1 0xFFFF) := by decide
theorem test_decode_slti : decodeTableWord 32 0x28220006 = some (.slti 2 1 6) := by decide
theorem test_decode_lw : decodeTableWord 32 0x8C22FFFC = some (.lw 2 1 0xFFFC) := by decide
theorem test_decode_sw : decodeTableWord 32 0xAC220004 = some (.sw 2 1 4) := by decide
theorem test_decode_beq : decodeTableWord 32 0x10220004 = some (.beq 1 2 4) := by decide
theorem test_decode_bne : decodeTableWord 32 0x1422FFF8 = some (.bne 1 2 0xFFF8) := by decide
theorem test_decode_j : decodeTableWord 32 0x0BFFFFFF = some (.j 0x3FFFFFF) := by decide
theorem test_decode_jal : decodeTableWord 32 0x0C000100 = some (.jal 0x100) := by decide
theorem test_decode_jr : decodeTableWord 32 0x00200008 = some (.jr 1) := by decide
/-- 2.1: `add` with sa = 5, an ignored field. -/
theorem test_decode_add_ignores_sa : decodeTableWord 32 0x00221960 = some (.add 3 1 2) := by decide
/-- CT-14: `jr $1` with rt = 3, rd = 4, sa = 5. -/
theorem test_decode_jr_ignores_fields : decodeTableWord 32 0x00232148 = some (.jr 1) := by decide
/-- R60 and R61: two forms and the pseudo-instruction. -/
theorem test_assemble_beq : assemble Config.defaultFunctMap (.branch .beq 1 2 4) = some 0x10220004 := by decide
theorem test_assemble_lw : assemble Config.defaultFunctMap (.mem .lw 2 (-4) 1) = some 0x8C22FFFC := by decide
theorem test_assemble_nop : assemble Config.defaultFunctMap .nop = some 0 := by decide
/-- R60: `lw $2,-4($1)` as LS-2 writes it, but for the blank after the comma. -/
theorem test_text_lw : (Asm.mem .lw 2 (-4) 1).text = "lw $2, -4($1)" := by decide

/-! ## One step of each instruction -/

theorem test_add_wraps : regAfter 3 (st [(1, 0x7FFFFFFF), (2, 1)] 0 [(0, 0x00221820)]) = some 0x80000000 := by decide
theorem test_add_to_register_zero : regAfter 0 (st [(1, 1), (2, 2)] 0 [(0, 0x00220020)]) = some 3 := by decide
theorem test_sub_wraps : regAfter 3 (st [(1, 0), (2, 1)] 0 [(0, 0x00221822)]) = some 0xFFFFFFFF := by decide
theorem test_and : regAfter 3 (st [(1, 0xF0F0F0F0), (2, 0xFF00FF00)] 0 [(0, 0x00221824)]) = some 0xF000F000 := by decide
theorem test_or : regAfter 3 (st [(1, 0xF0F0F0F0), (2, 0xFF00FF00)] 0 [(0, 0x00221825)]) = some 0xFFF0FFF0 := by decide
theorem test_xor : regAfter 3 (st [(1, 0xF0F0F0F0), (2, 0xFF00FF00)] 0 [(0, 0x00221826)]) = some 0x0FF00FF0 := by decide
theorem test_nor : regAfter 3 (st [(1, 0xF0F0F0F0), (2, 0xFF00FF00)] 0 [(0, 0x00221827)]) = some 0x000F000F := by decide
theorem test_slt_signed : regAfter 3 (st [(1, 0x80000000), (2, 0x7FFFFFFF)] 0 [(0, 0x0022182A)]) = some 1 := by decide
theorem test_slt_not_less : regAfter 3 (st [(1, 0), (2, 0xFFFFFFFF)] 0 [(0, 0x0022182A)]) = some 0 := by decide
theorem test_sll : regAfter 3 (st [(2, 0x80000001)] 0 [(0, 0x00021900)]) = some 0x10 := by decide
theorem test_srl : regAfter 3 (st [(2, 0x80000000)] 0 [(0, 0x00021FC2)]) = some 1 := by decide
theorem test_sra : regAfter 3 (st [(2, 0x80000000)] 0 [(0, 0x00021FC3)]) = some 0xFFFFFFFF := by decide
theorem test_sra_logical_mode :
    regAfterUnder { Config.params with sraMode := .logical } 3 (st [(2, 0xF0000000)] 0 [(0, 0x00021903)])
      = some 0x0F000000 := by decide
theorem test_addi_negative : regAfter 2 (st [(1, 0x80000000)] 0 [(0, 0x2022FFFF)]) = some 0x7FFFFFFF := by decide
theorem test_addi_sign_extends : regAfter 2 (st [(1, 0)] 0 [(0, 0x20228000)]) = some 0xFFFF8000 := by decide
theorem test_andi_zero_extends : regAfter 2 (st [(1, 0xFFFFFFFF)] 0 [(0, 0x30228000)]) = some 0x8000 := by decide
theorem test_ori : regAfter 2 (st [(1, 0x12340000)] 0 [(0, 0x3422FFFF)]) = some 0x1234FFFF := by decide
theorem test_xori : regAfter 2 (st [(1, 0xFFFFFFFF)] 0 [(0, 0x3822FFFF)]) = some 0xFFFF0000 := by decide
theorem test_slti_equal : regAfter 2 (st [(1, 0xFFFF8000)] 0 [(0, 0x28228000)]) = some 0 := by decide
theorem test_slti_less : regAfter 2 (st [(1, 0xFFFF7FFF)] 0 [(0, 0x28228000)]) = some 1 := by decide
/-- LS-3: a misaligned load; bytes 11 22 33 44 55 at 0x104 up. -/
theorem test_lw_misaligned :
    regAfter 2 (st [(1, 0x101)] 0 [(0, 0x8C220004), (0x104, 0x44332211), (0x108, 0x00000055)]) = some 0x55443322 := by
  decide
/-- LS-6: a load past the top. -/
theorem test_lw_past_top : statusAfter (st [(1, 0x000FFFFD)] 0 [(0, 0x8C220000)]) =
    some (.fatal (.memoryBoundsFatal .load 0x000FFFFD 0)) := by decide
/-- LS-9: the address sum wraps; under `EA_WRAP = fatal` it does not. -/
theorem test_lw_wraps : regAfter 2 (st [(1, 0xFFFFFFFC)] 0 [(0, 0x8C220008), (4, 0x55667788)]) = some 0x55667788 := by
  decide
theorem test_lw_fatal_mode :
    (after (stepUnder { Config.params with eaWrap := .fatal } (st [(1, 0xFFFFFFFC)] 0 [(0, 0x8C220008), (4, 0x55667788)]))).map
      State.status = some (.fatal (.memoryBoundsFatal .load 4 0)) := by decide
/-- LS-8: the stored bytes are EF BE AD DE at 0x104 up. -/
theorem test_sw_bytes : (after (step (st [(1, 0x100), (2, 0xDEADBEEF)] 0 [(0, 0xAC220004)]))).map
    (fun t => [t.mem.read 0x104, t.mem.read 0x105, t.mem.read 0x106, t.mem.read 0x107, t.mem.read 0x108]) =
    some [0xEF, 0xBE, 0xAD, 0xDE, 0x00] := by decide
/-- LS-7: a store past the top writes no byte, even in bounds. -/
theorem test_sw_past_top : (after (step (st [(1, 0x000FFFFE), (2, 0xAABBCCDD)] 0 [(0, 0xAC220000)]))).map
    (fun t => (t.mem.read 0xFFFFE, t.mem.read 0xFFFFF, t.status)) =
    some (0x00, 0x00, .fatal (.memoryBoundsFatal .store 0x000FFFFE 0)) := by decide
theorem test_beq_taken : pcAfter (st [(1, 5), (2, 5)] 0x1000 [(0x1000, 0x10220004)]) = some 0x1008 := by decide
theorem test_beq_not_taken : pcAfter (st [(1, 5), (2, 6)] 0x1000 [(0x1000, 0x10220004)]) = some 0x1004 := by decide
theorem test_bne_taken : pcAfter (st [(1, 5), (2, 6)] 0x1000 [(0x1000, 0x1422FFF8)]) = some 0x0FFC := by decide
/-- CT-8: a branch below 0 wraps. -/
theorem test_bne_wraps : pcAfter (st [(1, 1)] 0 [(0, 0x14208000)]) = some 0xFFFF8004 := by decide
theorem test_j_top : pcAfter (st [] 0x1000 [(0x1000, 0x0BFFFFFF)]) = some 0x0FFFFFFC := by decide
theorem test_jal_links : lrAfter (st [] 0x1000 [(0x1000, 0x0C000100)]) = some 0x1004 := by decide
theorem test_jal_target : pcAfter (st [] 0x1000 [(0x1000, 0x0C000100)]) = some 0x400 := by decide
theorem test_jr_misaligned : pcAfter (st [(1, 0x2002)] 0 [(0, 0x00200008)]) = some 0x2002 := by decide

/-! ## The cycle, FATAL and the host -/

/-- DE-1: an undefined word; pc is advanced, and there is no second step. -/
theorem test_decode_fatal : (after (step (st [] 0 [(0, 0xFFFFFFFF)]))).map (fun t => (t.status, t.pc)) =
    some (.fatal (.decodeFatal 0 0xFFFFFFFF 0x3F 0x3F), 4) := by decide
theorem test_no_step_in_fatal : after (Host.Core.run core 2 (st [] 0 [(0, 0xFFFFFFFF)])) = none := by decide
/-- FE-3: no wrap of the bounds sum; pc is not advanced. -/
theorem test_fetch_fatal : (after (step (st [] 0xFFFFFFFE []))).map (fun t => (t.status, t.pc)) =
    some (.fatal (.memoryBoundsFatal .fetch 0xFFFFFFFE 0xFFFFFFFE), 0xFFFFFFFE) := by decide
/-- FE-1: the last word of memory is fetched. -/
theorem test_fetch_last_word : pcAfter (st [] 0x000FFFFC []) = some 0x00100000 := by decide
/-- L1-12: the zero word changes nothing but pc, even when x0 is not 0. -/
theorem test_zero_word : after (step (st [(0, 7)] 0 [])) = some (st [(0, 7)] 4 []) := by decide
/-- P5: the word a `sw` puts at the next pc is the next instruction. -/
theorem test_self_modifying : ((after (Host.Core.run core 2
    (st [(1, 0x2002002A)] 0x0C [(0x0C, 0xAC010010), (0x10, 0xFFFFFFFF)]))).map fun t => t.reg 2) = some 42 := by decide
theorem test_fetch_word_runs_first : regAfter 2 (State.reset.withFetchWord 32 0x2022FFFF) = some 0xFFFFFFFF := by decide
/-- R116: the image at 0, zero beyond it; R102: an image larger than memory is refused. -/
theorem test_reset_image : hostReset 4 [0x04, 0x00, 0x22, 0x10] (st [(1, 5)] 8 []) =
    .started { State.reset with mem := [(0, 0x04), (2, 0x22), (3, 0x10)] } := by decide
theorem test_reset_image_too_large : hostReset 4 [1, 2, 3, 4, 5] State.reset = .loadFatal := by decide
theorem test_write_zero_removes_cell : Memory.put [(3, 7), (5, 9)] 3 0 = [(5, 9)] := by decide

/-! ## Witnesses: for each statement with hypotheses, data that meet them, at the edges of each clause -/

/-- Every statement over legal maps: the default is one, and so is one with another value for `add`. -/
theorem witness_functMap : Config.defaultFunctMap.wf = true ∧ ({ Config.defaultFunctMap with add := 0x21 }).wf = true := by
  decide
theorem witness_EffectiveAddressUnderBothModes : eaAllowed .fatal 0xFFFF8001 0x7FFF = false ∧
    inBounds Config.params.memSize (eaWord 0xFFFF8001 0x7FFF) = true ∧ eaAllowed .fatal 0 0xFFFF = false ∧
    eaAllowed .fatal 0xFFFFFFFF 0 = true := by decide
theorem witness_LoadWordUnderEveryParameter :
    (eaAllowed .fatal ((st [(1, 0xFFFFC)] 4 []).reg 1) 0 = true ∧
      inBounds Config.params.memSize (eaWord ((st [(1, 0xFFFFC)] 4 []).reg 1) 0) = true) ∧
    inBounds Config.params.memSize (eaWord ((st [(1, 0xFFFFC)] 4 []).reg 1) 1) = false := by decide
theorem witness_LoadWordCompletesInBounds :
    (eaWord ((st [(1, 0xFFFFC)] 4 []).reg 1) 0).toNat ≤ 0xFFFFC ∧ (eaWord ((st [(1, 3)] 4 []).reg 1) 0xFFFD).toNat ≤ 0xFFFFC := by
  decide
theorem witness_StoreWordUnderEveryParameter : (st [(1, 0xFFFFC)] 4 [(0, 0xAC220000)]).mem.wf = true ∧
    inBounds Config.params.memSize (eaWord ((st [(1, 0xFFFFC)] 4 [(0, 0xAC220000)]).reg 1) 0) = true ∧
    inBounds Config.params.memSize (eaWord ((st [(1, 0xFFFFC)] 4 [(0, 0xAC220000)]).reg 1) 1) = false := by decide
theorem witness_StoreWordCompletesInBounds : (st [(1, 0xFFFFC)] 4 [(0, 0xAC220000)]).mem.wf = true ∧
    (eaWord ((st [(1, 0xFFFFC)] 4 [(0, 0xAC220000)]).reg 1) 0).toNat ≤ 0xFFFFC := by decide
theorem witness_branch_conditions : (st [(1, 5), (2, 5)] 4 []).reg 1 = (st [(1, 5), (2, 5)] 4 []).reg 2 ∧
    (st [(1, 5), (2, 6)] 4 []).reg 1 ≠ (st [(1, 5), (2, 6)] 4 []).reg 2 := by decide
theorem witness_SraFollowsItsMode : Config.params.sraMode = .arithmetic ∧
    ({ Config.params with sraMode := .logical }).sraMode = .logical := by decide
theorem witness_StepRunsTheDecodedInstruction : (st [] 0xFFFFC [(0xFFFFC, 0x00221820)]).status = .running ∧
    inBounds Config.params.memSize (st [] 0xFFFFC [(0xFFFFC, 0x00221820)]).pc = true ∧
    decode Config.params.functMap ((st [] 0xFFFFC [(0xFFFFC, 0x00221820)]).mem.wordAt 0xFFFFC) = .ok (.add 3 1 2) := by
  refine ⟨?_, ?_, ?_⟩ <;> rfl
theorem witness_FetchReadsTheWordOrFaults : (st [] 0xFFFFC []).status = .running ∧
    memRead Config.params.memSize (st [] 0xFFFFC []).mem (st [] 0xFFFFC []).pc = some 0 ∧
    inBounds Config.params.memSize (st [] 0xFFFFD []).pc = false := by decide
theorem witness_UndefinedWordRaisesDecodeFatal : (st [] 0xFFFFC [(0xFFFFC, 0x3C011234)]).status = .running ∧
    inBounds Config.params.memSize (st [] 0xFFFFC [(0xFFFFC, 0x3C011234)]).pc = true ∧
    definedWord Config.params.functMap ((st [] 0xFFFFC [(0xFFFFC, 0x3C011234)]).mem.wordAt 0xFFFFC) = false := by decide
/-- The three kinds of entry to FATAL: a fetch fault, an undefined word, and a load out of bounds. -/
theorem witness_FatalIsPreciseAndTerminal :
    statusAfter (st [] 0xFFFFD []) = some (.fatal (.memoryBoundsFatal .fetch 0xFFFFD 0xFFFFD)) ∧
    statusAfter (st [] 0 [(0, 0x00000001)]) = some (.fatal (.decodeFatal 0 1 0 1)) ∧
    statusAfter (st [(1, 0xFFFFD)] 0 [(0, 0x8C220000)]) = some (.fatal (.memoryBoundsFatal .load 0xFFFFD 0)) := by decide
theorem witness_fatal_state : ((st [] 0 []).raise (.decodeFatal 0 1 0 1)).status = .fatal (.decodeFatal 0 1 0 1) := rfl
/-- The clauses of the order of FATAL conditions that enter none: an instruction that raises nothing, and a load
and a store at the last in-bounds address. -/
theorem witness_FatalConditionsComeInOrder : statusAfter (st [] 0xFFFFC []) = some .running ∧
    statusAfter (st [(1, 0xFFFFC)] 0 [(0, 0x8C220000)]) = some .running ∧
    statusAfter (st [(1, 0xFFFFC)] 0 [(0, 0xAC220000)]) = some .running ∧
    statusAfter (st [(1, 0xFFFFD)] 0 [(0, 0xAC220000)]) = some (.fatal (.memoryBoundsFatal .store 0xFFFFD 0)) := by decide
theorem witness_StepExistsExactlyWhenRunning : (st [] 0 []).status = .running ∧
    ((st [] 0 []).raise (.memoryBoundsFatal .load 1 2)).status = .fatal (.memoryBoundsFatal .load 1 2) := ⟨rfl, rfl⟩
theorem witness_PcIsSetByTransfersAlone : (st [] 0xFFFFC []).status = .running ∧
    inBounds Config.params.memSize (st [] 0xFFFFC []).pc = true := by decide
theorem witness_LinkRegisterIsJalsAlone : (∃ t, exec (.jr 1) (st [] 4 []) = .next t) ∧ (∀ target, Instr.jr 1 ≠ .jal target) ∧
    SameButLr (st [] 4 []) ((st [] 4 []).setLr 9) :=
  ⟨⟨_, rfl⟩, (fun _ h => by cases h), ⟨fun _ => rfl, rfl, rfl, rfl⟩⟩
theorem witness_OnlyTheDestinationIsWritten : destination (.add 3 1 2) ≠ some 0 ∧ destination (.sw 2 1 0) ≠ some 2 := by decide
theorem witness_OnlyStoreWordChangesMemory :
    (∃ t, exec (.add 3 1 2) (st [] 4 []) = .next t) ∧ ∀ rt rs imm, Instr.add 3 1 2 ≠ .sw rt rs imm :=
  ⟨⟨_, rfl⟩, fun _ _ _ h => by cases h⟩
/-- Register 0 renamed to 1 and so on, 31 to 0: the value 5 of register 0 stands in register 1. -/
theorem witness_RegistersCanBeRenamed : Function.Injective (fun r : Reg => r + 1) ∧
    Renamed (fun r => r + 1) (st [(0, 5)] 4 []) (st [(1, 5)] 4 []) :=
  ⟨fun _ _ h => by simpa using h, ⟨by decide, rfl, rfl, rfl, rfl⟩⟩
theorem witness_memory_port : inBounds 4 0 = true ∧ inBounds 4 1 = false ∧ inBounds (2 ^ 32) 0xFFFFFFFC = true ∧
    inBounds (2 ^ 32) 0xFFFFFFFD = false ∧ Memory.wf [(0, 1), (3, 2)] = true := by decide
theorem witness_ReadAfterWriteMergesBytes : Memory.wf [(0x104, 9)] = true ∧ inBounds Config.params.memSize 0x100 = true ∧
    inBounds Config.params.memSize 0x101 = true := by decide
/-- A `sw` at 0x0C over the word at 0x10, as in P5. -/
theorem witness_NextFetchSeesAStoreToIt :
    (st [(1, 0x2002002A)] 0x0C [(0x0C, 0xAC010010)]).status = .running ∧
    (st [(1, 0x2002002A)] 0x0C [(0x0C, 0xAC010010)]).mem.wf = true ∧
    inBounds Config.params.memSize (st [(1, 0x2002002A)] 0x0C [(0x0C, 0xAC010010)]).pc = true ∧
    decode Config.params.functMap ((st [(1, 0x2002002A)] 0x0C [(0x0C, 0xAC010010)]).mem.wordAt 0x0C) = .ok (.sw 1 0 0x10) ∧
    eaWord ((st [(1, 0x2002002A)] 0x0C [(0x0C, 0xAC010010)]).reg 0) 0x10 = 0x0C + 4 ∧
    inBounds Config.params.memSize (0x0C + 4) = true ∧
    decode Config.params.functMap ((st [(1, 0x2002002A)] 0x0C [(0x0C, 0xAC010010)]).reg 1) = .ok (.addi 2 0 42) := by
  refine ⟨?_, ?_, ?_, ?_, ?_, ?_, ?_⟩ <;> rfl
/-- A jump to the last word of memory, which is a `nop`. -/
theorem witness_NoDelaySlotAfterATransfer : (st [] 0 [(0, 0x0803FFFF)]).status = .running ∧
    inBounds Config.params.memSize (st [] 0 [(0, 0x0803FFFF)]).pc = true ∧
    decode Config.params.functMap ((st [] 0 [(0, 0x0803FFFF)]).mem.wordAt 0) = .ok (.j 0x3FFFF) ∧
    pcAfter (st [] 0 [(0, 0x0803FFFF)]) = some 0xFFFFC ∧ inBounds Config.params.memSize 0xFFFFC = true ∧
    decode Config.params.functMap ((st [] 0 [(0, 0x0803FFFF)]).mem.wordAt 0xFFFFC) = .ok (.sll 0 0 0) := by
  refine ⟨?_, ?_, ?_, ?_, ?_, ?_⟩ <;> rfl
/-- CT-10: a jump out of bounds. -/
theorem witness_BadTargetFaultsAtTheNextFetch : (st [] 0 [(0, 0x0BFFFFFF)]).status = .running ∧
    inBounds Config.params.memSize (st [] 0 [(0, 0x0BFFFFFF)]).pc = true ∧
    decode Config.params.functMap ((st [] 0 [(0, 0x0BFFFFFF)]).mem.wordAt 0) = .ok (.j 0x3FFFFFF) ∧
    pcAfter (st [] 0 [(0, 0x0BFFFFFF)]) = some 0x0FFFFFFC ∧ inBounds Config.params.memSize 0x0FFFFFFC = false := by
  refine ⟨?_, ?_, ?_, ?_, ?_⟩ <;> rfl
/-- Two no-ops from the last two words of memory, and then the fault. -/
theorem witness_ZeroWordsRunToTheFetchFault : (st [] 0xFFFF8 []).status = .running ∧
    (∀ a, (st [] 0xFFFF8 []).pc.toNat ≤ a → a < Config.params.memSize → (st [] 0xFFFF8 []).mem.read a = 0) ∧
    (st [] 0xFFFF8 []).pc.toNat + 4 * 2 ≤ Config.params.memSize ∧
    Config.params.memSize < (st [] 0xFFFF8 []).pc.toNat + 4 * 2 + 4 :=
  ⟨rfl, fun _ _ _ => rfl, by decide, by decide⟩
theorem witness_EveryStepKeepsTheInvariant : Config.params.wf = true ∧
    Inv Config.params (st [] 0 [(0, 0x00221820)]) ∧ pcAfter (st [] 0 [(0, 0x00221820)]) = some 4 :=
  ⟨by decide, ⟨by decide, by decide, fun _ h => by cases h⟩, by decide⟩
theorem witness_ResetMeetsTheInvariant : ∃ t, hostReset Config.params.memSize [1, 0, 2] State.reset = .started t :=
  ⟨_, rfl⟩
theorem witness_ResetLoadsTheImageVerbatim :
    [1, 2, 3, 4].length ≤ 4 ∧ 4 < [1, 2, 3, 4, 5].length ∧ ([] : List Byte).length ≤ 4 := by decide
theorem witness_IgnoredFieldsChangeNothing : decode Config.defaultFunctMap 0x00221960 = .ok (.add 3 1 2) ∧
    0x00221820 &&& usedMask (.add 3 1 2) = 0x00221960 &&& usedMask (.add 3 1 2) := ⟨rfl, by decide⟩
theorem witness_defined_and_undefined_words : definedWord Config.defaultFunctMap 0x0000002A = true ∧
    definedWord Config.defaultFunctMap 0x0000002B = false ∧ definedWord Config.defaultFunctMap 0xAFFFFFFF = true ∧
    definedWord Config.defaultFunctMap 0xB0000000 = false := by decide
theorem witness_DecoderAgreesWithOpcodeTable : decode Config.defaultFunctMap 0xAFFFFFFF = .ok (.sw 31 31 0xFFFF) ∧
    decode Config.defaultFunctMap 0xB0000000 = .error (.undefinedOpcode 0x2C) := ⟨rfl, rfl⟩
/-- Boundary values of the ranges, the two ways to write one immediate, and the words of 95_test_vectors.md's `addi`, `bne`
and `lw` from their lines of assembly. -/
theorem witness_AssembledLinesDecodeToThemselves : Config.defaultFunctMap.wf = true ∧
    (Asm.imm .addi 31 0 (-32768)).wf = true ∧ (Asm.imm .addi 31 0 (-32769)).wf = false ∧
    (Asm.branch .bne 0 31 32767).wf = true ∧
    (65535 : Int) = (0xFFFF#16).toNat ∧ (-1 : Int) = (0xFFFF#16).toInt ∧
    assemble Config.defaultFunctMap (.imm .addi 2 1 65535) = some 0x2022FFFF ∧
    assemble Config.defaultFunctMap (.imm .addi 2 1 (-1)) = some 0x2022FFFF ∧
    assemble Config.defaultFunctMap (.branch .bne 1 2 (-8)) = some 0x1422FFF8 ∧
    assemble Config.defaultFunctMap (.mem .lw 2 4 1) = some 0x8C220004 := by decide

end Sys2Proof.Tests
end

/-! PROOF. What an instruction can write, and the link register (10_state.md R21, R31): `jal` alone writes it and
no instruction reads it. -/

namespace Sys2Proof.Machine

/-! ## What an instruction can write -/

/-- The effects an instruction can have on a state (R31, R69, R99). Each names the fields that change. -/
inductive Effect (s : State) : Instr → State → Prop
  /-- The result goes to the destination. -/
  | result {i : Instr} {r : Reg} (h : destination i = some r) (v : Word) : Effect s i (s.setReg r v)
  /-- A branch, `j` or `jr` sets `pc`; a branch not taken sets it to what it was. -/
  | transfer {i : Instr} (h : destination i = none) (target : Word) : Effect s i (s.setPc target)
  | link (target : BitVec 26) : Effect s (.jal target) ((s.setLr s.pc).setPc (jumpTarget s.pc target))
  | store (rt rs : Reg) (imm : BitVec 16) :
    Effect s (.sw rt rs imm) (s.setMem (s.mem.putWord (eaWord (s.reg rs) imm).toNat (s.reg rt)))
  | loadFault (rt rs : Reg) (imm : BitVec 16) :
    Effect s (.lw rt rs imm) (s.raiseAccess .load (eaWord (s.reg rs) imm))
  | storeFault (rt rs : Reg) (imm : BitVec 16) :
    Effect s (.sw rt rs imm) (s.raiseAccess .store (eaWord (s.reg rs) imm))

/-- Whatever `exec` answers is one of these effects. -/
theorem exec_effect {i : Instr} {s t : State} (h : exec i s = .next t) : Effect s i t := by
  cases i with
  | lw rt rs imm =>
    rcases loadWord_cases Config.params s rt rs imm with ⟨_, _, hload⟩ | ⟨_, hload⟩
    · cases hload.symm.trans h
      exact .result rfl _
    · cases hload.symm.trans h
      exact .loadFault rt rs imm
  | sw rt rs imm =>
    rcases storeWord_cases Config.params s rt rs imm with ⟨_, _, hstore⟩ | ⟨_, hstore⟩
    · cases hstore.symm.trans h
      exact .store rt rs imm
    · cases hstore.symm.trans h
      exact .storeFault rt rs imm
  | beq rs rt imm | bne rs rt imm =>
    cases (branchIf_eq s _ imm).symm.trans h
    exact .transfer rfl _
  | j | jr => cases h; exact .transfer rfl _
  | jal target => cases h; exact .link target
  | add | sub | and | or | xor | nor | slt | sll | srl | sra | addi | andi | ori | xori | slti =>
    cases h; exact .result rfl _

/-- R21: only `jal` writes LR. -/
theorem exec_lr_of_ne_jal {i : Instr} {s t : State} (hi : ∀ target, i ≠ .jal target) (h : exec i s = .next t) :
    t.lr = s.lr := by
  cases exec_effect h with
  | link target => exact absurd rfl (hi target)
  | result | transfer | store | loadFault | storeFault => rfl

/-! ## States that differ at most in LR -/

theorem SameButLr.eq_setLr {s t : State} (h : SameButLr s t) : t = s.setLr t.lr :=
  State.ext_reg h.regs rfl h.pc h.mem h.status

theorem sameButLr_setLr (s : State) (v : Word) : SameButLr s (s.setLr v) := ⟨s.setLr_reg v, rfl, rfl, rfl⟩

variable (s : State) (v : Word)

/-- A load does not look at LR and carries it over, also into FATAL. -/
theorem loadWord_setLr (p : Params) (rt rs : Reg) (imm : BitVec 16) :
    ∃ t, loadWord p rt rs imm s = .next t ∧ loadWord p rt rs imm (s.setLr v) = .next (t.setLr v) := by
  simp only [loadWord, State.setLr_reg, State.setLr_mem]
  by_cases ha : eaAllowed p.eaWrap (s.reg rs) imm = true
  · cases memRead p.memSize s.mem (eaWord (s.reg rs) imm) <;> exact ⟨_, if_pos ha, if_pos ha⟩
  · exact ⟨_, if_neg ha, if_neg ha⟩

/-- A store does not look at LR and carries it over, also into FATAL. -/
theorem storeWord_setLr (p : Params) (rt rs : Reg) (imm : BitVec 16) :
    ∃ t, storeWord p rt rs imm s = .next t ∧ storeWord p rt rs imm (s.setLr v) = .next (t.setLr v) := by
  simp only [storeWord, State.setLr_reg, State.setLr_mem]
  by_cases ha : eaAllowed p.eaWrap (s.reg rs) imm = true
  · cases memWrite p.memSize s.mem (eaWord (s.reg rs) imm) (s.reg rt) <;> exact ⟨_, if_pos ha, if_pos ha⟩
  · exact ⟨_, if_neg ha, if_neg ha⟩

/-- R21: no instruction reads LR. Started with another value in LR, an instruction answers the same state but for LR,
which still holds that value, or after `jal` the link that is written in both runs. -/
theorem exec_setLr (i : Instr) :
    ∃ t w, exec i s = .next t ∧ exec i (s.setLr v) = .next (t.setLr w) := by
  cases i with
  | lw rt rs imm =>
    obtain ⟨t, h, h'⟩ := loadWord_setLr s v Config.params rt rs imm
    exact ⟨t, v, h, h'⟩
  | sw rt rs imm =>
    obtain ⟨t, h, h'⟩ := storeWord_setLr s v Config.params rt rs imm
    exact ⟨t, v, h, h'⟩
  | beq rs rt imm | bne rs rt imm => exact ⟨_, v, branchIf_eq s _ imm, branchIf_eq (s.setLr v) _ imm⟩
  | jal => exact ⟨_, s.pc, rfl, rfl⟩
  | add | sub | and | or | xor | nor | slt | sll | srl | sra | addi | andi | ori | xori | slti | j | jr =>
    exact ⟨_, v, rfl, rfl⟩

/-- Agreement on everything but LR is kept by every instruction. -/
theorem exec_sameButLr (i : Instr) {s s' : State} (h : SameButLr s s') :
    ∃ t t', exec i s = .next t ∧ exec i s' = .next t' ∧ SameButLr t t' := by
  obtain ⟨t, w, ht, ht'⟩ := exec_setLr s s'.lr i
  rw [← h.eq_setLr] at ht'
  exact ⟨t, t.setLr w, ht, ht', sameButLr_setLr t w⟩

/-- R94: `jal` writes no general register. -/
theorem exec_jal_sameRegs (target : BitVec 26) : ∃ t, exec (.jal target) s = .next t ∧ SameRegs s t :=
  ⟨_, rfl, fun _ => rfl⟩

/-- Settles O34: `exec_effect` says what can write LR, and `exec_setLr`, which runs each instruction with another value
in LR, that nothing reads it. -/
theorem linkRegisterIsJalsAlone : Obligations.LinkRegisterIsJalsAlone :=
  ⟨fun _ _ _ => exec_lr_of_ne_jal, fun i _ _ => exec_sameButLr i, fun target s => exec_jal_sameRegs s target,
    fun _ => rfl, rfl⟩

end Sys2Proof.Machine

/-! PROOF. The memory port, byte by byte (20_memory.md R34 to R36): what a read and a write in bounds give, and that
out of bounds they give nothing. -/

namespace Sys2Proof.Machine

/-! ## The bytes of a word -/

section

variable (b0 b1 b2 b3 : Byte)

@[simp] theorem wordByte_zero_wordOfBytes : wordByte (wordOfBytes b0 b1 b2 b3) 0 = b0 :=
  BitVec.extractLsb'_append_eq_right

@[simp] theorem wordByte_one_wordOfBytes : wordByte (wordOfBytes b0 b1 b2 b3) 1 = b1 := by
  rw [wordByte, wordOfBytes, BitVec.extractLsb'_append_eq_of_le (by decide)]
  exact BitVec.extractLsb'_append_eq_right

@[simp] theorem wordByte_two_wordOfBytes : wordByte (wordOfBytes b0 b1 b2 b3) 2 = b2 := by
  rw [wordByte, wordOfBytes, BitVec.extractLsb'_append_eq_of_le (by decide),
    BitVec.extractLsb'_append_eq_of_le (by decide)]
  exact BitVec.extractLsb'_append_eq_right

@[simp] theorem wordByte_three_wordOfBytes : wordByte (wordOfBytes b0 b1 b2 b3) 3 = b3 := by
  rw [wordByte, wordOfBytes, BitVec.extractLsb'_append_eq_of_le (by decide),
    BitVec.extractLsb'_append_eq_of_le (by decide), BitVec.extractLsb'_append_eq_of_le (by decide)]
  exact BitVec.extractLsb'_eq_self

end

/-- Byte `k` of the word at `a` is the byte of memory at `a + k` (R35). -/
theorem Memory.wordByte_wordAt (m : Memory) (a : Nat) {k : Nat} (hk : k < 4) :
    wordByte (m.wordAt a) k = m.read (a + k) := by
  interval_cases k
  · exact wordByte_zero_wordOfBytes ..
  · exact wordByte_one_wordOfBytes ..
  · exact wordByte_two_wordOfBytes ..
  · exact wordByte_three_wordOfBytes ..

/-! ## The bytes of memory after a word is put -/

/-- The byte at `a + k` is byte `k` of the word put at `a` (R36). -/
theorem Memory.read_putWord_inside {m : Memory} (h : m.wf = true) (a : Nat) (v : Word) {k : Nat} (hk : k < 4) :
    (m.putWord a v).read (a + k) = wordByte v k := by
  rw [Memory.read_putWord h, if_pos (by omega), Nat.add_sub_cancel_left]

/-- A byte outside the four that are put is as before (R36). -/
theorem Memory.read_putWord_outside {m : Memory} (h : m.wf = true) {a b : Nat} (v : Word)
    (hb : b < a ∨ a + 4 ≤ b) : (m.putWord a v).read b = m.read b := by
  rw [Memory.read_putWord h, if_neg (by omega)]

/-! ## The port -/

section

variable {size : Nat} {a : Word}

theorem memRead_of_inBounds (h : inBounds size a = true) (m : Memory) :
    memRead size m a = some (m.wordAt a.toNat) := if_pos h

theorem memRead_of_not_inBounds (h : inBounds size a = false) (m : Memory) : memRead size m a = none :=
  if_neg (Bool.eq_false_iff.1 h)

theorem memWrite_of_inBounds (h : inBounds size a = true) (m : Memory) (v : Word) :
    memWrite size m a v = some (m.putWord a.toNat v) := if_pos h

theorem memWrite_of_not_inBounds (h : inBounds size a = false) (m : Memory) (v : Word) :
    memWrite size m a v = none := if_neg (Bool.eq_false_iff.1 h)

end

/-- Settles O40: in bounds the write is `putWord`, whose bytes inside and outside the word are known. -/
theorem memoryWriteStoresFourBytes : Obligations.MemoryWriteStoresFourBytes := by
  intro size m a v hw
  refine ⟨fun hb => ⟨_, memWrite_of_inBounds hb m v, ?_, ?_⟩, fun hb => memWrite_of_not_inBounds hb m v⟩
  · exact fun k hk => Memory.read_putWord_inside hw a.toNat v hk
  · exact fun b hout => Memory.read_putWord_outside hw v hout

/-- Settles O39: in bounds the read is `wordAt`, whose byte `k` is the byte of memory at `a + k`. -/
theorem memoryReadIsLittleEndian : Obligations.MemoryReadIsLittleEndian := by
  intro size m a
  refine ⟨fun hb => ⟨_, memRead_of_inBounds hb m, ?_⟩, fun hb => memRead_of_not_inBounds hb m⟩
  exact fun k hk => Memory.wordByte_wordAt m a.toNat hk

end Sys2Proof.Machine

/-! PROOF. The cycle (40_cycle.md R63 to R71): what fetch and dispatch make of a step, the update of pc, and a run over
zero memory to the fetch fault. -/

namespace Sys2Proof.Machine

/-! ## A step of a Running engine -/

/-- R99: `raise` enters FATAL and changes nothing else. -/
theorem enteredFatal_raise (s : State) (info : FatalInfo) : EnteredFatal info s (s.raise info) :=
  ⟨rfl, fun _ => rfl, rfl, rfl, fun _ => rfl⟩

/-- R67, R68: a word that is an instruction is executed. -/
theorem dispatch_of_decode_ok {p : Params} {w : Word} {i : Instr} (h : decode p.functMap w = .ok i)
    (ex : Instr → State → Answer) (s : State) : dispatch p ex w s = ex i s := by
  simp only [dispatch, h]

section

variable {s : State}

/-- R64, R65: the word read at `pc` is dispatched after the fetch advance. -/
theorem step_of_memRead {w : Word} (hs : s.status = .running)
    (hw : memRead Config.params.memSize s.mem s.pc = some w) :
    step s = dispatch Config.params exec w s.advance := by
  simp only [step, stepWith, hs, cycle, fetch, hw]

theorem step_of_inBounds (hs : s.status = .running) (hb : inBounds Config.params.memSize s.pc = true) :
    step s = dispatch Config.params exec (s.mem.wordAt s.pc.toNat) s.advance :=
  step_of_memRead hs (memRead_of_inBounds hb s.mem)

/-- R64: where `pc` is out of bounds the fetch raises, from the state before the advance. -/
theorem step_of_not_inBounds (hs : s.status = .running) (hb : inBounds Config.params.memSize s.pc = false) :
    step s = .next s.raiseFetch := by
  simp only [step, stepWith, hs, cycle, fetch, memRead_of_not_inBounds hb]

/-- R70: the decoded instruction is executed from the advanced state. -/
theorem step_of_decode_ok {i : Instr} (hs : s.status = .running)
    (hb : inBounds Config.params.memSize s.pc = true)
    (hd : decode Config.params.functMap (s.mem.wordAt s.pc.toNat) = .ok i) : step s = exec i s.advance :=
  (step_of_inBounds hs hb).trans (dispatch_of_decode_ok hd exec s.advance)

/-- R64, R99: the fetch fault enters FATAL and changes nothing else. -/
theorem step_enteredFatal_of_not_inBounds (hs : s.status = .running)
    (hb : inBounds Config.params.memSize s.pc = false) :
    ∃ t, step s = .next t ∧ EnteredFatal (.memoryBoundsFatal .fetch s.pc s.pc) s t :=
  ⟨_, step_of_not_inBounds hs hb, enteredFatal_raise s _⟩

end

/-- Settles O27: the fetched word is in bounds and decodes, so the cycle comes to `exec` of its instruction. -/
theorem stepRunsTheDecodedInstruction : Obligations.StepRunsTheDecodedInstruction :=
  fun _ _ hs hb hd => step_of_decode_ok hs hb hd

/-- Settles O28: the word read is dispatched (`step_of_memRead`), and without one the fetch fault is entered. -/
theorem fetchReadsTheWordOrFaults : Obligations.FetchReadsTheWordOrFaults :=
  fun _ hs => ⟨fun _ hw => step_of_memRead hs hw, fun hb => step_enteredFatal_of_not_inBounds hs hb⟩

/-! ## The update of pc -/

section

variable (s : State) (rt rs : Reg) (imm : BitVec 16)

/-- R69: a load leaves the advanced PC, also when it enters FATAL. -/
theorem loadWord_pc (p : Params) : ∃ t, loadWord p rt rs imm s = .next t ∧ t.pc = s.pc := by
  rcases loadWord_cases p s rt rs imm with ⟨_, _, h⟩ | ⟨_, h⟩
  · exact ⟨_, h, rfl⟩
  · exact ⟨_, h, rfl⟩

/-- R69: a store leaves the advanced PC, also when it enters FATAL. -/
theorem storeWord_pc (p : Params) : ∃ t, storeWord p rt rs imm s = .next t ∧ t.pc = s.pc := by
  rcases storeWord_cases p s rt rs imm with ⟨_, _, h⟩ | ⟨_, h⟩
  · exact ⟨_, h, rfl⟩
  · exact ⟨_, h, rfl⟩

/-- R69, R91: `pc` after `beq`, taken and not taken. -/
theorem execBeq_pc : ∃ t, execBeq rs rt imm s = .next t ∧
    t.pc = if s.reg rs = s.reg rt then s.pc + imm.signExtend 32 else s.pc :=
  ⟨_, branchIf_eq s _ imm, by simp [sameWord, branchTarget, sext32]⟩

/-- R69, R92: `pc` after `bne`, taken and not taken. -/
theorem execBne_pc : ∃ t, execBne rs rt imm s = .next t ∧
    t.pc = if s.reg rs ≠ s.reg rt then s.pc + imm.signExtend 32 else s.pc :=
  ⟨_, branchIf_eq s _ imm, by simp [sameWord, branchTarget, sext32]⟩

end

/-- Settles O33: one case for each way an instruction treats `pc`; the next fetch is `step_of_inBounds`. -/
theorem pcIsSetByTransfersAlone : Obligations.PcIsSetByTransfersAlone := by
  refine ⟨fun i s => ?_, fun s hs hb => step_of_inBounds hs hb⟩
  cases i with
  | beq rs rt imm => exact execBeq_pc s rt rs imm
  | bne rs rt imm => exact execBne_pc s rt rs imm
  | lw rt rs imm => exact loadWord_pc s rt rs imm Config.params
  | sw rt rs imm => exact storeWord_pc s rt rs imm Config.params
  | j | jal | jr => exact ⟨_, rfl, rfl⟩
  | add | sub | and | or | xor | nor | slt | sll | srl | sra | addi | andi | ori | xori | slti =>
    exact ⟨_, rfl, rfl⟩

/-! ## The zero word -/

/-- R71: the zero word is `sll 0 0 0`, because every legal map has `sll` at 0x00. -/
theorem decode_zero {fm : FunctMap} (hfm : fm.wf = true) : decode fm 0 = .ok (.sll 0 0 0) := by
  obtain ⟨hsll, -⟩ := FunctMap.wf_iff.1 hfm
  have hop : (fieldsOf 0).opcode = 0x00 := by decide
  have hfunct : (fieldsOf 0).funct = fm.sll := hsll.symm
  rw [decode, decodeFields, if_pos hop, decodeFunct, if_pos hfunct]
  rfl

/-- Writing back the value a register holds changes nothing. -/
@[simp] theorem State.setReg_reg_self (s : State) (r : Reg) : s.setReg r (s.reg r) = s :=
  State.ext_reg (fun q => by rw [State.setReg_reg]; split_ifs with h <;> simp [h]) rfl rfl rfl rfl

/-- R71: `sll 0 0 0` changes nothing, whatever register 0 holds. -/
theorem exec_sll_zero (s : State) : exec (.sll 0 0 0) s = .next s := by
  simp [exec, execSll, writeBack_eq, shiftLeft]

theorem Memory.wordAt_eq_zero {m : Memory} {a : Nat} (h : ∀ k < 4, m.read (a + k) = 0) : m.wordAt a = 0 := by
  have h0 : m.read a = 0 := h 0 (by decide)
  rw [Memory.wordAt, h0, h 1 (by decide), h 2 (by decide), h 3 (by decide)]
  rfl

/-- R71: a zero word at `pc` only advances `pc`. -/
theorem step_of_zero_word {s : State} (hs : s.status = .running) (hb : inBounds Config.params.memSize s.pc = true)
    (hz : s.mem.wordAt s.pc.toNat = 0) : step s = .next s.advance := by
  have hd : decode Config.params.functMap (s.mem.wordAt s.pc.toNat) = .ok (.sll 0 0 0) := by
    rw [hz]
    exact decode_zero Config.defaultFunctMap_wf
  rw [step_of_decode_ok hs hb hd, exec_sll_zero]

/-! ## A run over zero memory -/

/-- A run of `n` steps that has come to `t` goes on with a step from `t`, whatever the machine is. -/
theorem coreRun_succ_of_run (M : Host.Core) {n : Nat} {s t : M.State} (h : M.run n s = .next t) :
    M.run (n + 1) s = M.step t := by
  induction n generalizing s with
  | zero =>
    obtain rfl : s = t := Host.Outcome.next.inj h
    rw [Host.Core.run]
    cases M.step s with
    | next u | fault r | refused r => rfl
  | succ n ih =>
    rw [Host.Core.run] at h ⊢
    cases hs : M.step s with
    | next u =>
      rw [hs] at h
      exact ih h
    | fault r | refused r =>
      rw [hs] at h
      cases h

theorem run_succ_of_run {n : Nat} {s t : State} (h : Host.Core.run core n s = .next t) :
    Host.Core.run core (n + 1) s = step t := coreRun_succ_of_run core h

/-- The bounds keep the address sum from wrapping. -/
theorem toNat_add_ofNat_of_le_memSize {pc : Word} {k : Nat} (h : pc.toNat + k ≤ Config.params.memSize) :
    (pc + BitVec.ofNat 32 k).toNat = pc.toNat + k := by
  have hsize : Config.params.memSize = 0x100000 := rfl
  rw [BitVec.toNat_add, BitVec.toNat_ofNat]
  omega

/-- R71: over zero memory, `n` steps that stay in bounds only advance `pc`, by 4 each. -/
theorem run_of_zero_memory {s : State} {n : Nat} (hs : s.status = .running)
    (hz : ∀ a, s.pc.toNat ≤ a → a < Config.params.memSize → s.mem.read a = 0)
    (hn : s.pc.toNat + 4 * n ≤ Config.params.memSize) :
    Host.Core.run core n s = .next (s.setPc (s.pc + BitVec.ofNat 32 (4 * n))) := by
  induction n with
  | zero => simp [run_zero, State.setPc]
  | succ n ih =>
    have hpc := toNat_add_ofNat_of_le_memSize (pc := s.pc) (k := 4 * n) (by omega)
    have hword : s.mem.wordAt (s.pc + BitVec.ofNat 32 (4 * n)).toNat = 0 :=
      Memory.wordAt_eq_zero fun k hk => hz _ (by omega) (by omega)
    have hstep : step (s.setPc (s.pc + BitVec.ofNat 32 (4 * n))) =
        .next (s.setPc (s.pc + BitVec.ofNat 32 (4 * n))).advance :=
      step_of_zero_word hs (inBounds_iff.2 (by rw [State.setPc_pc]; omega)) hword
    rw [run_succ_of_run (ih (by omega)), hstep, Nat.mul_succ, BitVec.ofNat_add, ← BitVec.add_assoc]
    rfl

/-- Settles O45: `run_of_zero_memory` for the `n` no-ops, and the fetch fault where the next word is out of bounds. -/
theorem zeroWordsRunToTheFetchFault : Obligations.ZeroWordsRunToTheFetchFault := by
  refine ⟨fun _ => decode_zero, exec_sll_zero, fun s hs hz n hn => ?_⟩
  have hrun := run_of_zero_memory hs hz hn
  refine ⟨hrun, fun hend => ?_⟩
  have hout : inBounds Config.params.memSize (s.pc + BitVec.ofNat 32 (4 * n)) = false := by
    rw [Bool.eq_false_iff, ne_eq, inBounds_iff, toNat_add_ofNat_of_le_memSize hn]
    omega
  rw [run_succ_of_run hrun]
  exact step_enteredFatal_of_not_inBounds (s := s.setPc _) hs hout

end Sys2Proof.Machine

/-! PROOF. The words of the R-type instructions (30_encoding.md R49, R57), and the register-register ALU instructions
(41_alu_register.md). -/

namespace Sys2Proof

/-! ## Decoding an R-type word -/

/-- The funct values of a `FUNCT_MAP` in the order of R68's dispatch, each with the instruction it stands for. -/
def rTypeRows (fm : FunctMap) (rs rt rd : Reg) (sa : BitVec 5) : List (Σ _ : BitVec 6, Instr) :=
  [⟨fm.sll, .sll rd rt sa⟩, ⟨fm.srl, .srl rd rt sa⟩, ⟨fm.sra, .sra rd rt sa⟩, ⟨fm.jr, .jr rs⟩,
   ⟨fm.add, .add rd rs rt⟩, ⟨fm.sub, .sub rd rs rt⟩, ⟨fm.and, .and rd rs rt⟩, ⟨fm.or, .or rd rs rt⟩,
   ⟨fm.xor, .xor rd rs rt⟩, ⟨fm.nor, .nor rd rs rt⟩, ⟨fm.slt, .slt rd rs rt⟩]

/-- One comparison of a dispatch by `if`: the head row is taken or the lookup goes on. -/
theorem elim_dlookup_cons {α β γ : Type} [DecidableEq α] (a k : α) (b : β) (l : List (Σ _ : α, β)) (e : γ)
    (g : β → γ) :
    (List.dlookup a (⟨k, b⟩ :: l)).elim e g = if a = k then g b else (l.dlookup a).elim e g := by
  split_ifs with h
  · subst h
    rw [List.dlookup_cons_eq, Option.elim_some]
  · rw [List.dlookup_cons_ne l ⟨k, b⟩ h]

/-- R68: the dispatch on `funct` is the lookup in the rows. -/
theorem decodeFunct_eq_dlookup (fm : FunctMap) (f : Fields) :
    decodeFunct fm f = ((rTypeRows fm f.rs f.rt f.rd f.sa).dlookup f.funct).elim
      (.error (.undefinedFunct f.funct)) .ok := by
  simp only [decodeFunct, rTypeRows, elim_dlookup_cons, List.dlookup_nil, Option.elim_none]

/-- R57: under a legal map no funct value stands in two rows. -/
theorem rTypeRows_nodupKeys {fm : FunctMap} (hfm : fm.wf = true) (rs rt rd : Reg) (sa : BitVec 5) :
    (rTypeRows fm rs rt rd sa).NodupKeys :=
  (FunctMap.wf_iff.1 hfm).2

/-- R49, R67, R68: under a legal map an R-type word decodes to the instruction in the row of its funct value. -/
theorem decode_encodeR_of_mem {fm : FunctMap} (hfm : fm.wf = true) {rs rt rd : Reg} {sa : BitVec 5} {funct : BitVec 6}
    {i : Instr} (hrow : ⟨funct, i⟩ ∈ rTypeRows fm rs rt rd sa) :
    decode fm (encodeR rs rt rd sa funct) = .ok i := by
  have hlookup : (rTypeRows fm rs rt rd sa).dlookup funct = some i :=
    List.mem_dlookup (rTypeRows_nodupKeys hfm rs rt rd sa) hrow
  rw [decode, decodeFields, if_pos (encodeR_opcode ..), decodeFunct_eq_dlookup, encodeR_rs, encodeR_rt, encodeR_rd,
    encodeR_sa, encodeR_funct, hlookup, Option.elim_some]

end Sys2Proof

namespace Sys2Proof.Machine

/-! ## The one register written -/

/-- R69: writing a register changes no other one, nor LR, `pc`, the status or memory. -/
theorem onlyRegWritten_setReg (r : Reg) (v : Word) (s : State) : OnlyRegWritten r s (s.setReg r v) :=
  ⟨fun _ hq => s.setReg_reg_other hq v, rfl, rfl, rfl, fun _ => rfl⟩

/-! ## The register-register form -/

/-- The form shared by the instructions of 41_alu_register.md: `op` has the funct value `funct`, and puts `f` of `x[rs]`
and `x[rt]` in `rd`. -/
structure IsRegisterAlu (op : Reg → Reg → Reg → Instr) (funct : FunctMap → BitVec 6)
    (f : Word → Word → Word) : Prop where
  row : ∀ fm rs rt rd sa, ⟨funct fm, op rd rs rt⟩ ∈ rTypeRows fm rs rt rd sa
  exec_eq : ∀ rd rs rt s, exec (op rd rs rt) s = writeBack rd (f (s.reg rs) (s.reg rt)) s

/-- Every word of such an instruction decodes to it, whatever `sa` holds, and its run leaves in `rd` a word of which `P`
holds if `P` holds of `f`'s results, and changes nothing else. -/
theorem IsRegisterAlu.decodes_and_writes {op : Reg → Reg → Reg → Instr} {funct : FunctMap → BitVec 6}
    {f : Word → Word → Word} (h : IsRegisterAlu op funct f) (P : Word → Word → Word → Prop)
    (hP : ∀ a b, P a b (f a b)) :
    (∀ fm : FunctMap, fm.wf = true → ∀ (rs rt rd : Reg) (sa : BitVec 5),
      decode fm (encodeR rs rt rd sa (funct fm)) = .ok (op rd rs rt)) ∧
    ∀ (rd rs rt : Reg) (s : State), ∃ t, exec (op rd rs rt) s = .next t ∧ OnlyRegWritten rd s t ∧
      P (s.reg rs) (s.reg rt) (t.reg rd) := by
  refine ⟨fun fm hfm rs rt rd sa => decode_encodeR_of_mem hfm (h.row fm rs rt rd sa), fun rd rs rt s => ?_⟩
  refine ⟨_, h.exec_eq rd rs rt s, onlyRegWritten_setReg rd _ s, ?_⟩
  rw [State.setReg_reg_same]
  exact hP (s.reg rs) (s.reg rt)

/-! ## The seven instructions (R73 to R79) -/

theorem isRegisterAlu_add : IsRegisterAlu .add FunctMap.add (fun a b => a + b) :=
  ⟨by simp [rTypeRows], fun _ _ _ _ => rfl⟩

theorem isRegisterAlu_sub : IsRegisterAlu .sub FunctMap.sub (fun a b => a - b) :=
  ⟨by simp [rTypeRows], fun _ _ _ _ => rfl⟩

theorem isRegisterAlu_and : IsRegisterAlu .and FunctMap.and (fun a b => a &&& b) :=
  ⟨by simp [rTypeRows], fun _ _ _ _ => rfl⟩

theorem isRegisterAlu_or : IsRegisterAlu .or FunctMap.or (fun a b => a ||| b) :=
  ⟨by simp [rTypeRows], fun _ _ _ _ => rfl⟩

theorem isRegisterAlu_xor : IsRegisterAlu .xor FunctMap.xor (fun a b => a ^^^ b) :=
  ⟨by simp [rTypeRows], fun _ _ _ _ => rfl⟩

theorem isRegisterAlu_nor : IsRegisterAlu .nor FunctMap.nor (fun a b => ~~~(a ||| b)) :=
  ⟨by simp [rTypeRows], fun _ _ _ _ => rfl⟩

theorem isRegisterAlu_slt : IsRegisterAlu .slt FunctMap.slt (fun a b => flagWord (lessSigned a b)) :=
  ⟨by simp [rTypeRows], fun _ _ _ _ => rfl⟩

/-- Subtraction as the sum with the complement, modulo 2^32 (R74). -/
theorem sub_toNat (a b : Word) : (a - b).toNat = (a.toNat + (2 ^ 32 - b.toNat)) % 2 ^ 32 := by
  rw [BitVec.toNat_sub, Nat.add_comm]

/-- Bit `k` of a not-or (R78). -/
theorem not_or_getLsbD (a b : Word) {k : Nat} (hk : k < 32) :
    (~~~(a ||| b)).getLsbD k = !(a.getLsbD k || b.getLsbD k) := by
  rw [BitVec.getLsbD_not, BitVec.getLsbD_or, decide_eq_true hk, Bool.true_and]

/-- The word of a signed comparison (R79, R87). -/
theorem flagWord_lessSigned (a b : Word) :
    flagWord (lessSigned a b) = if a.toInt < b.toInt then 1#32 else 0#32 := by
  simp [flagWord, lessSigned]

/-- Settles O1: the 32-bit sum is the unsigned sum modulo 2^32. -/
theorem addWrapsModulo : Obligations.AddWrapsModulo :=
  isRegisterAlu_add.decodes_and_writes (fun a b v => v.toNat = (a.toNat + b.toNat) % 2 ^ 32) BitVec.toNat_add

/-- Settles O2: the 32-bit difference is the unsigned difference modulo 2^32. -/
theorem subtractWrapsModulo : Obligations.SubtractWrapsModulo :=
  isRegisterAlu_sub.decodes_and_writes (fun a b v => v.toNat = (a.toNat + (2 ^ 32 - b.toNat)) % 2 ^ 32) sub_toNat

/-- Settles O3: each bit of the result is the and of the two bits. -/
theorem andIsBitwise : Obligations.AndIsBitwise :=
  isRegisterAlu_and.decodes_and_writes (fun a b v => ∀ k < 32, v.getLsbD k = (a.getLsbD k && b.getLsbD k))
    fun _ _ _ _ => BitVec.getLsbD_and

/-- Settles O4: each bit of the result is the or of the two bits. -/
theorem orIsBitwise : Obligations.OrIsBitwise :=
  isRegisterAlu_or.decodes_and_writes (fun a b v => ∀ k < 32, v.getLsbD k = (a.getLsbD k || b.getLsbD k))
    fun _ _ _ _ => BitVec.getLsbD_or

/-- Settles O5: each bit of the result is the exclusive or of the two bits. -/
theorem xorIsBitwise : Obligations.XorIsBitwise :=
  isRegisterAlu_xor.decodes_and_writes (fun a b v => ∀ k < 32, v.getLsbD k = Bool.xor (a.getLsbD k) (b.getLsbD k))
    fun _ _ _ _ => BitVec.getLsbD_xor

/-- Settles O6: each bit of the result is the or of the two bits, negated. -/
theorem norIsBitwise : Obligations.NorIsBitwise :=
  isRegisterAlu_nor.decodes_and_writes (fun a b v => ∀ k < 32, v.getLsbD k = !(a.getLsbD k || b.getLsbD k))
    fun a b _ hk => not_or_getLsbD a b hk

/-- Settles O7: the comparison reads both operands as signed, and its word is 1 or 0. -/
theorem sltComparesSigned : Obligations.SltComparesSigned :=
  isRegisterAlu_slt.decodes_and_writes (fun a b v => v = if a.toInt < b.toInt then 1#32 else 0#32) flagWord_lessSigned

end Sys2Proof.Machine

/-! PROOF. The shift instructions (42_shift.md): their words, and each shift as a product or a quotient by a power of
two. -/

namespace Sys2Proof.Machine

/-! ## The shifts as arithmetic (R14) -/

section

variable (a : Word) (n : BitVec 5)

/-- R80: a left shift multiplies, modulo 2^32. -/
theorem shiftLeft_toNat : (shiftLeft a n).toNat = a.toNat * 2 ^ n.toNat % 2 ^ 32 := by
  rw [shiftLeft, BitVec.toNat_shiftLeft, Nat.shiftLeft_eq]

/-- R81: a right shift with zeros divides the unsigned value. -/
theorem shiftRightZero_toNat : (shiftRightZero a n).toNat = a.toNat / 2 ^ n.toNat := by
  rw [shiftRightZero, BitVec.toNat_ushiftRight, Nat.shiftRight_eq_div_pow]

/-- R82: a right shift with copies of bit 31 divides the signed value, rounding toward minus infinity. -/
theorem shiftRightSign_toInt : (shiftRightSign a n).toInt = Int.fdiv a.toInt (2 ^ n.toNat) := by
  have hpos : (0 : Int) ≤ 2 ^ n.toNat := by positivity
  rw [shiftRightSign, BitVec.toInt_sshiftRight, Int.shiftRight_eq_div_pow, Int.fdiv_eq_ediv_of_nonneg _ hpos,
    Nat.cast_pow, Nat.cast_ofNat]

end

/-! ## The three instructions (R80 to R82) -/

/-- A write-back writes its register alone, and leaves in it a word of which `P` holds if `P` holds of the result. -/
theorem writeBack_onlyRegWritten (r : Reg) (s : State) (P : Word → Prop) {v : Word} (hP : P v) :
    ∃ t, writeBack r v s = .next t ∧ OnlyRegWritten r s t ∧ P (t.reg r) := by
  refine ⟨_, writeBack_eq s r v, onlyRegWritten_setReg r v s, ?_⟩
  rw [State.setReg_reg_same]
  exact hP

/-- Settles O10: each mode is one of the two right shifts, whose value is known. -/
theorem sraFollowsItsMode : Obligations.SraFollowsItsMode := by
  refine ⟨fun fm hfm rs rt rd sa => decode_encodeR_of_mem hfm (by simp [rTypeRows]), fun p rd rt sa s => ?_⟩
  refine writeBack_onlyRegWritten rd s (fun v =>
    (p.sraMode = .arithmetic → v.toInt = Int.fdiv (s.reg rt).toInt (2 ^ sa.toNat)) ∧
    (p.sraMode = .logical → v.toNat = (s.reg rt).toNat / 2 ^ sa.toNat)) ⟨fun hmode => ?_, fun hmode => ?_⟩
  · rw [hmode]
    exact shiftRightSign_toInt (s.reg rt) sa
  · rw [hmode]
    exact shiftRightZero_toNat (s.reg rt) sa

/-- Settles O8: the funct value 0x00 is that of `sll` under every legal map. -/
theorem sllMultipliesByPowerOfTwo : Obligations.SllMultipliesByPowerOfTwo := by
  refine ⟨fun fm hfm rs rt rd sa => decode_encodeR_of_mem hfm ?_, fun rd rt sa s => ?_⟩
  · obtain ⟨hsll, -⟩ := FunctMap.wf_iff.1 hfm
    simp [rTypeRows, hsll]
  · exact writeBack_onlyRegWritten rd s (fun v => v.toNat = (s.reg rt).toNat * 2 ^ sa.toNat % 2 ^ 32)
      (shiftLeft_toNat (s.reg rt) sa)

/-- Settles O9: the result is the unsigned quotient by 2^sa. -/
theorem srlDividesByPowerOfTwo : Obligations.SrlDividesByPowerOfTwo := by
  refine ⟨fun fm hfm rs rt rd sa => decode_encodeR_of_mem hfm (by simp [rTypeRows]), fun rd rt sa s => ?_⟩
  exact writeBack_onlyRegWritten rd s (fun v => v.toNat = (s.reg rt).toNat / 2 ^ sa.toNat)
    (shiftRightZero_toNat (s.reg rt) sa)

end Sys2Proof.Machine

/-! PROOF. The words of the I-type instructions (30_encoding.md R50, R56), and the immediate ALU instructions
(43_alu_immediate.md). -/

namespace Sys2Proof

/-! ## Decoding an I-type word -/

/-- The I-type opcodes in the order of R67's dispatch, each with the instruction it stands for. -/
def iTypeRows (rs rt : Reg) (imm : BitVec 16) : List (Σ _ : BitVec 6, Instr) :=
  [⟨0x04, .beq rs rt imm⟩, ⟨0x05, .bne rs rt imm⟩, ⟨0x08, .addi rt rs imm⟩, ⟨0x0A, .slti rt rs imm⟩,
   ⟨0x0C, .andi rt rs imm⟩, ⟨0x0D, .ori rt rs imm⟩, ⟨0x0E, .xori rt rs imm⟩, ⟨0x23, .lw rt rs imm⟩,
   ⟨0x2B, .sw rt rs imm⟩]

/-- R50, R67: an I-type word decodes to the instruction in the row of its opcode, whatever the `FUNCT_MAP`. -/
theorem decode_encodeI_of_mem (fm : FunctMap) {rs rt : Reg} {imm : BitVec 16} {opcode : BitVec 6} {i : Instr}
    (hrow : ⟨opcode, i⟩ ∈ iTypeRows rs rt imm) : decode fm (encodeI opcode rs rt imm) = .ok i := by
  simp only [iTypeRows, List.mem_cons, Sigma.mk.injEq, heq_eq_eq, List.not_mem_nil, or_false] at hrow
  rcases hrow with ⟨rfl, rfl⟩ | ⟨rfl, rfl⟩ | ⟨rfl, rfl⟩ | ⟨rfl, rfl⟩ | ⟨rfl, rfl⟩ | ⟨rfl, rfl⟩ | ⟨rfl, rfl⟩ |
    ⟨rfl, rfl⟩ | ⟨rfl, rfl⟩ <;>
  simp [decode, decodeFields]

end Sys2Proof

namespace Sys2Proof.Machine

/-! ## The register-immediate form -/

/-- The form shared by the instructions of 43_alu_immediate.md: `op` has the opcode `opcode`, and puts `f` of `x[rs]` and
the immediate in `rt`. -/
structure IsImmediateAlu (op : Reg → Reg → BitVec 16 → Instr) (opcode : BitVec 6)
    (f : Word → BitVec 16 → Word) : Prop where
  row : ∀ rs rt imm, ⟨opcode, op rt rs imm⟩ ∈ iTypeRows rs rt imm
  exec_eq : ∀ rt rs imm s, exec (op rt rs imm) s = writeBack rt (f (s.reg rs) imm) s

/-- The word of such an instruction decodes to it, and its run writes `rt` alone, with a word of which `P` holds
if `P` holds of `f`'s results. -/
theorem IsImmediateAlu.decodes_and_writes {op : Reg → Reg → BitVec 16 → Instr} {opcode : BitVec 6}
    {f : Word → BitVec 16 → Word} (h : IsImmediateAlu op opcode f) (P : Word → BitVec 16 → Word → Prop)
    (hP : ∀ a imm, P a imm (f a imm)) :
    (∀ (fm : FunctMap) (rs rt : Reg) (imm : BitVec 16),
      decode fm (encodeI opcode rs rt imm) = .ok (op rt rs imm)) ∧
    ∀ (rt rs : Reg) (imm : BitVec 16) (s : State), ∃ t, exec (op rt rs imm) s = .next t ∧ OnlyRegWritten rt s t ∧
      P (s.reg rs) imm (t.reg rt) := by
  refine ⟨fun fm rs rt imm => decode_encodeI_of_mem fm (h.row rs rt imm), fun rt rs imm s => ?_⟩
  rw [h.exec_eq]
  exact writeBack_onlyRegWritten rt s (P (s.reg rs) imm) (hP (s.reg rs) imm)

/-! ## The five instructions (R83 to R87) -/

theorem isImmediateAlu_addi : IsImmediateAlu .addi 0x08 (fun a imm => a + sext32 imm) :=
  ⟨by simp [iTypeRows], fun _ _ _ _ => rfl⟩

theorem isImmediateAlu_andi : IsImmediateAlu .andi 0x0C (fun a imm => a &&& zext32 imm) :=
  ⟨by simp [iTypeRows], fun _ _ _ _ => rfl⟩

theorem isImmediateAlu_ori : IsImmediateAlu .ori 0x0D (fun a imm => a ||| zext32 imm) :=
  ⟨by simp [iTypeRows], fun _ _ _ _ => rfl⟩

theorem isImmediateAlu_xori : IsImmediateAlu .xori 0x0E (fun a imm => a ^^^ zext32 imm) :=
  ⟨by simp [iTypeRows], fun _ _ _ _ => rfl⟩

theorem isImmediateAlu_slti : IsImmediateAlu .slti 0x0A (fun a imm => flagWord (lessSigned a (sext32 imm))) :=
  ⟨by simp [iTypeRows], fun _ _ _ _ => rfl⟩

/-- R87: the comparison with an extended immediate is the comparison with its signed value. -/
theorem flagWord_lessSigned_sext32 (a : Word) (imm : BitVec 16) :
    flagWord (lessSigned a (sext32 imm)) = if a.toInt < imm.toInt then 1#32 else 0#32 := by
  rw [flagWord_lessSigned, sext32_toInt]

/-- Settles O12: adding the extended immediate adds its signed value modulo 2^32. -/
theorem addiAddsSignExtended : Obligations.AddiAddsSignExtended :=
  isImmediateAlu_addi.decodes_and_writes (fun a imm v => (v.toNat : Int) = (a.toNat + imm.toInt) % 2 ^ 32)
    add_sext32_toNat

/-- Settles O13: each bit is the and with that of the zero-extended immediate. -/
theorem andiMasksWithZeroExtended : Obligations.AndiMasksWithZeroExtended :=
  isImmediateAlu_andi.decodes_and_writes
    (fun a imm v => ∀ k < 32, v.getLsbD k = (a.getLsbD k && (decide (k < 16) && imm.getLsbD k)))
    fun a imm k _ => by rw [BitVec.getLsbD_and, zext32_getLsbD]

/-- Settles O14: each bit is the or with that of the zero-extended immediate. -/
theorem oriSetsZeroExtended : Obligations.OriSetsZeroExtended :=
  isImmediateAlu_ori.decodes_and_writes
    (fun a imm v => ∀ k < 32, v.getLsbD k = (a.getLsbD k || (decide (k < 16) && imm.getLsbD k)))
    fun a imm k _ => by rw [BitVec.getLsbD_or, zext32_getLsbD]

/-- Settles O15: each bit is the exclusive or with that of the zero-extended immediate. -/
theorem xoriFlipsZeroExtended : Obligations.XoriFlipsZeroExtended :=
  isImmediateAlu_xori.decodes_and_writes
    (fun a imm v => ∀ k < 32, v.getLsbD k = Bool.xor (a.getLsbD k) (decide (k < 16) && imm.getLsbD k))
    fun a imm k _ => by rw [BitVec.getLsbD_xor, zext32_getLsbD]

/-- Settles O16: extension keeps the signed value, so the comparison is with the signed immediate. -/
theorem sltiComparesWithSignExtended : Obligations.SltiComparesWithSignExtended :=
  isImmediateAlu_slti.decodes_and_writes (fun a imm v => v = if a.toInt < imm.toInt then 1#32 else 0#32)
    flagWord_lessSigned_sext32

end Sys2Proof.Machine

/-! PROOF. Load word and store word under every `MEM_SIZE` and `EA_WRAP` (44_load_store.md R88 to R90): an access that is
made, and one that raises. -/

namespace Sys2Proof.Machine

/-- R88, R103: an access that one of the two checks refuses does not pass both. -/
theorem not_eaAllowed_and_inBounds {mode : EaWrap} {base a : Word} {imm : BitVec 16} {size : Nat}
    (h : eaAllowed mode base imm = false ∨ ¬ a.toNat + 3 < size) :
    ¬ (eaAllowed mode base imm = true ∧ inBounds size a = true) := by
  rw [inBounds_iff, not_and_or, Bool.not_eq_true]
  exact h

/-- R99, R101: the bounds fault of a load or store enters FATAL with the address of its instruction. -/
theorem enteredFatal_raiseAccess (s : State) (acc : Access) (a : Word) :
    EnteredFatal (.memoryBoundsFatal acc a (s.pc - 4)) s (s.raiseAccess acc a) :=
  enteredFatal_raise s _

/-- Byte `k` of a register that was loaded from `a` is the byte of memory at `a + k` (R89). -/
theorem State.setReg_wordAt_byte (s : State) (r : Reg) (a : Nat) {k : Nat} (hk : k < 4) :
    ((s.setReg r (s.mem.wordAt a)).reg r).extractLsb' (8 * k) 8 = s.mem.read (a + k) := by
  rw [State.setReg_reg_same]
  exact Memory.wordByte_wordAt s.mem a hk

/-- Settles O18: a load writes the word at the effective address to `rt`, or a check refuses it and it raises. -/
theorem loadWordUnderEveryParameter : Obligations.LoadWordUnderEveryParameter := by
  refine ⟨fun fm rs rt imm => decode_encodeI_of_mem fm (by simp [iTypeRows]), fun p rt rs imm s => ?_⟩
  rcases loadWord_cases p s rt rs imm with ⟨hallowed, hbounds, hload⟩ | ⟨hrefused, hload⟩
  · refine ⟨_, hload, ?_⟩
    rw [if_pos ⟨hallowed, inBounds_iff.2 hbounds⟩]
    exact ⟨onlyRegWritten_setReg rt _ s, fun k hk => s.setReg_wordAt_byte rt _ hk⟩
  · refine ⟨_, hload, ?_⟩
    rw [if_neg (not_eaAllowed_and_inBounds hrefused)]
    exact enteredFatal_raiseAccess s .load _

/-- Settles O20: a store puts `x[rt]` at the effective address, which changes those four bytes alone, or a check refuses
it and it raises. -/
theorem storeWordUnderEveryParameter : Obligations.StoreWordUnderEveryParameter := by
  refine ⟨fun fm rs rt imm => decode_encodeI_of_mem fm (by simp [iTypeRows]), fun p rt rs imm s hwf => ?_⟩
  rcases storeWord_cases p s rt rs imm with ⟨hallowed, hbounds, hstore⟩ | ⟨hrefused, hstore⟩
  · refine ⟨_, hstore, ?_⟩
    rw [if_pos ⟨hallowed, inBounds_iff.2 hbounds⟩]
    refine ⟨s.setMem_reg _, rfl, rfl, rfl, fun k hk => ?_, fun a hout => ?_⟩
    · exact Memory.read_putWord_inside hwf _ (s.reg rt) hk
    · exact Memory.read_putWord_outside hwf (s.reg rt) hout
  · refine ⟨_, hstore, ?_⟩
    rw [if_neg (not_eaAllowed_and_inBounds hrefused)]
    exact enteredFatal_raiseAccess s .store _

end Sys2Proof.Machine

/-! PROOF. Branches and jumps (45_control_transfer.md R91 to R96): what a transfer keeps, the words of the J-type
instructions, and where each transfer goes. -/

namespace Sys2Proof

/-! ## Decoding a J-type word -/

/-- The J-type opcodes in the order of R67's dispatch, each with the instruction it stands for. -/
def jTypeRows (target : BitVec 26) : List (Σ _ : BitVec 6, Instr) := [⟨0x02, .j target⟩, ⟨0x03, .jal target⟩]

/-- R51, R67: a J-type word decodes to the instruction in the row of its opcode, whatever the `FUNCT_MAP`. -/
theorem decode_encodeJ_of_mem (fm : FunctMap) {target : BitVec 26} {opcode : BitVec 6} {i : Instr}
    (hrow : ⟨opcode, i⟩ ∈ jTypeRows target) : decode fm (encodeJ opcode target) = .ok i := by
  simp only [jTypeRows, List.mem_cons, Sigma.mk.injEq, heq_eq_eq, List.not_mem_nil, or_false] at hrow
  rcases hrow with ⟨rfl, rfl⟩ | ⟨rfl, rfl⟩ <;>
  simp [decode, decodeFields]

end Sys2Proof

namespace Sys2Proof.Machine

/-! ## What a transfer keeps -/

/-- The five instructions of 45_control_transfer.md. -/
def IsTransfer (i : Instr) : Prop :=
  (∃ rs rt imm, i = .beq rs rt imm) ∨ (∃ rs rt imm, i = .bne rs rt imm) ∨ (∃ target, i = .j target) ∨
    (∃ target, i = .jal target) ∨ (∃ rs, i = .jr rs)

theorem IsTransfer.destination_eq_none {i : Instr} (hi : IsTransfer i) : destination i = none := by
  rcases hi with ⟨_, _, _, rfl⟩ | ⟨_, _, _, rfl⟩ | ⟨_, rfl⟩ | ⟨_, rfl⟩ | ⟨_, rfl⟩ <;> rfl

/-- A transfer raises nothing and stores nothing: a bad target is found only by the next fetch (R97). -/
theorem IsTransfer.exec_keeps_status_mem {i : Instr} (hi : IsTransfer i) {s t : State} (h : exec i s = .next t) :
    t.status = s.status ∧ t.mem = s.mem := by
  cases exec_effect h with
  | transfer | link => exact ⟨rfl, rfl⟩
  | result hdest => simp [hi.destination_eq_none] at hdest
  | store | loadFault | storeFault => simp [IsTransfer] at hi

/-- Settles O43: a transfer leaves the engine Running and the memory as it was, so the next step fetches from the `pc`
it set. -/
theorem noDelaySlotAfterATransfer : Obligations.NoDelaySlotAfterATransfer := by
  intro s i hs hb hd hi
  obtain ⟨t, ht⟩ := exec_answers s.advance i
  obtain ⟨hstatus, hmem⟩ := IsTransfer.exec_keeps_status_mem hi ht
  refine ⟨t, (step_of_decode_ok hs hb hd).trans ht, ht, fun j hbt hdt => ?_⟩
  have hword : t.mem.wordAt t.pc.toNat = s.mem.wordAt t.pc.toNat := congrArg (·.wordAt t.pc.toNat) hmem
  exact step_of_decode_ok (hstatus.trans hs) hbt (hword ▸ hdt)

/-- R69: setting `pc` changes no register, nor LR, the status or memory. -/
theorem onlyPcWritten_setPc (s : State) (target : Word) : OnlyPcWritten s (s.setPc target) :=
  ⟨fun _ => rfl, rfl, rfl, fun _ => rfl⟩

/-! ## The branches (R91, R92) -/

@[simp] theorem sameWord_eq_true_iff {a b : Word} : sameWord a b = true ↔ a = b := decide_eq_true_iff

@[simp] theorem sameWord_eq_false_iff {a b : Word} : sameWord a b = false ↔ a ≠ b := decide_eq_false_iff_not

/-- R53, R69: a branch that is taken where `P` holds and not taken where `Q` holds adds the signed byte offset to `pc`
in the one case and leaves `pc` in the other. It writes nothing else. -/
theorem branchIf_onlyPcWritten {P Q : Prop} {taken : Bool} (hP : P → taken = true) (hQ : Q → taken = false)
    (imm : BitVec 16) (s : State) :
    ∃ t, branchIf taken imm s = .next t ∧ OnlyPcWritten s t ∧
      (P → (t.pc.toNat : Int) = ((s.pc.toNat : Int) + imm.toInt) % 2 ^ 32) ∧ (Q → t.pc = s.pc) := by
  refine ⟨_, branchIf_eq s taken imm, onlyPcWritten_setPc s _, fun h => ?_, fun h => ?_⟩
  · rw [hP h]
    exact add_sext32_toNat s.pc imm
  · rw [hQ h]
    rfl

/-- Settles O22: the branch is taken exactly when the two registers hold the same word. -/
theorem beqBranchesWhenEqual : Obligations.BeqBranchesWhenEqual :=
  ⟨fun fm _ _ _ => decode_encodeI_of_mem fm (by simp [iTypeRows]), fun _ _ imm s =>
    branchIf_onlyPcWritten sameWord_eq_true_iff.2 sameWord_eq_false_iff.2 imm s⟩

/-- Settles O23: the condition is that of `beq`, negated. -/
theorem bneBranchesWhenDifferent : Obligations.BneBranchesWhenDifferent :=
  ⟨fun fm _ _ _ => decode_encodeI_of_mem fm (by simp [iTypeRows]), fun _ _ imm s =>
    branchIf_onlyPcWritten (fun hne => by simpa using hne) (fun heq => by simpa using heq) imm s⟩

/-! ## The jumps (R93 to R95) -/

/-- The mask of R54, a numeral that `jumpTarget` casts to a word, selects bits 28 to 31. -/
theorem regionMask_getLsbD : ∀ k < 32, ((0xF0000000 : Nat) : Word).getLsbD k = decide (28 ≤ k) := by decide

/-- R54: the jump target bit by bit: two zeros, the 26 target bits, and the top four bits of the advanced PC. -/
theorem jumpTarget_getLsbD (pc : Word) (target : BitVec 26) {k : Nat} (hk : k < 32) :
    (jumpTarget pc target).getLsbD k =
      if k < 2 then false else if k < 28 then target.getLsbD (k - 2) else pc.getLsbD k := by
  rw [jumpTarget, BitVec.getLsbD_or, BitVec.getLsbD_and, regionMask_getLsbD k hk, BitVec.getLsbD_shiftLeft,
    BitVec.getLsbD_setWidth]
  split_ifs with hlow hmid
  · simp [hlow, show ¬ 28 ≤ k by omega]
  · simp [hlow, hk, show ¬ 28 ≤ k by omega, show k - 2 < 32 by omega]
  · simp [show 28 ≤ k by omega, BitVec.getLsbD_of_ge target (k - 2) (by omega)]

/-- Settles O24: `j` sets `pc` to the jump target and writes nothing else. -/
theorem jumpReplacesTheLowBits : Obligations.JumpReplacesTheLowBits :=
  ⟨fun fm _ => decode_encodeJ_of_mem fm (by simp [jTypeRows]), fun target s =>
    ⟨_, rfl, onlyPcWritten_setPc s _, fun _ hk => jumpTarget_getLsbD s.pc target hk⟩⟩

/-- Settles O25: the link is the `pc` that the body reads, and the target is that of `j`. -/
theorem jumpAndLinkSavesAdvancedPc : Obligations.JumpAndLinkSavesAdvancedPc :=
  ⟨fun fm _ => decode_encodeJ_of_mem fm (by simp [jTypeRows]), fun target s =>
    ⟨_, rfl, rfl, fun _ => rfl, rfl, fun _ => rfl, fun _ hk => jumpTarget_getLsbD s.pc target hk⟩⟩

/-- Settles O26: `jr` sets `pc` to the register and writes nothing else; `rt`, `rd` and `sa` are no operands. -/
theorem jumpRegisterGoesToTheRegister : Obligations.JumpRegisterGoesToTheRegister :=
  ⟨fun _ hfm _ _ _ _ => decode_encodeR_of_mem hfm (by simp [rTypeRows]), fun rs s =>
    ⟨_, rfl, onlyPcWritten_setPc s (s.reg rs), rfl⟩⟩

end Sys2Proof.Machine

/-! PROOF. The image load of a reset (70_reset_and_hazards.md R116): which of its two answers `hostReset` gives an image,
and what the memory it starts with holds at every address. -/

namespace Sys2Proof.Machine

section
variable {size : Nat} {image : List Byte}

/-- An image that fits, of exactly `size` bytes too, starts the engine. -/
theorem hostReset_of_length_le (h : image.length ≤ size) (s : State) :
    hostReset size image s = .started (State.reset.setMem (Memory.ofImage 0 image)) := by
  obtain ⟨-, hstarted⟩ | ⟨hlarger, -⟩ := hostReset_cases size image s
  · exact hstarted
  · exact absurd h (Nat.not_le.2 hlarger)

/-- R102: an image of more than `size` bytes is refused. -/
theorem hostReset_of_lt_length (h : size < image.length) (s : State) : hostReset size image s = .loadFatal := by
  obtain ⟨hfits, -⟩ | ⟨-, hrefused⟩ := hostReset_cases size image s
  · exact absurd h (Nat.not_lt.2 hfits)
  · exact hrefused

end

/-- The image lies in memory from address 0, so its length alone tells its bytes from the zeros beyond it. -/
theorem Memory.read_ofImage_zero (image : List Byte) (a : Nat) :
    (Memory.ofImage 0 image).read a = image.getD a 0 := by
  simp [Memory.read_ofImage 0 image a]

/-- Settles O48: an image that fits is in memory byte by byte with zeros beyond it, and a larger one is refused. -/
theorem resetLoadsTheImageVerbatim : Obligations.ResetLoadsTheImageVerbatim := by
  refine fun size image s => ⟨fun hfits => ⟨_, hostReset_of_length_le hfits s, fun a ha => ?_, fun a ha => ?_⟩,
    fun hlarger => hostReset_of_lt_length hlarger s⟩
  · exact (Memory.read_ofImage_zero image a).trans (List.getD_eq_getElem _ _ ha)
  · exact (Memory.read_ofImage_zero image a).trans (List.getD_eq_default _ _ ha)

end Sys2Proof.Machine

/-! PROOF. Words and instructions (30_encoding.md): a word is the fields of its format, the decoder is a lookup in the rows
of R56 and R57, and a word decodes to an instruction exactly when its used bits are those of the encoding. -/

namespace Sys2Proof

/-! ## A word from its fields (R48 to R51) -/

section

variable {w : Word}

theorem encodeR_fieldsOf (h : (fieldsOf w).opcode = 0) :
    encodeR (fieldsOf w).rs (fieldsOf w).rt (fieldsOf w).rd (fieldsOf w).sa (fieldsOf w).funct = w := by
  have hop : w.extractLsb' 26 6 = 0x00#6 := h
  simp only [encodeR, fieldsOf, ← hop]
  rw [BitVec.extractLsb'_append_extractLsb'_eq_extractLsb' (by decide),
    BitVec.extractLsb'_append_extractLsb'_eq_extractLsb' (by decide),
    BitVec.extractLsb'_append_extractLsb'_eq_extractLsb' (by decide),
    BitVec.extractLsb'_append_extractLsb'_eq_extractLsb' (by decide),
    BitVec.extractLsb'_append_extractLsb'_eq_extractLsb' (by decide)]
  exact BitVec.extractLsb'_eq_self

theorem encodeI_fieldsOf (w : Word) :
    encodeI (fieldsOf w).opcode (fieldsOf w).rs (fieldsOf w).rt (fieldsOf w).imm = w := by
  simp only [encodeI, fieldsOf]
  rw [BitVec.extractLsb'_append_extractLsb'_eq_extractLsb' (by decide),
    BitVec.extractLsb'_append_extractLsb'_eq_extractLsb' (by decide),
    BitVec.extractLsb'_append_extractLsb'_eq_extractLsb' (by decide)]
  exact BitVec.extractLsb'_eq_self

theorem encodeJ_fieldsOf (w : Word) : encodeJ (fieldsOf w).opcode (fieldsOf w).target = w := by
  simp only [encodeJ, fieldsOf]
  rw [BitVec.extractLsb'_append_extractLsb'_eq_extractLsb' (by decide)]
  exact BitVec.extractLsb'_eq_self

/-- An R-type word is known by its opcode and its five other fields. -/
theorem eq_encodeR_iff {rs rt rd : Reg} {sa : BitVec 5} {funct : BitVec 6} :
    w = encodeR rs rt rd sa funct ↔ (fieldsOf w).opcode = 0 ∧ (fieldsOf w).rs = rs ∧ (fieldsOf w).rt = rt ∧
      (fieldsOf w).rd = rd ∧ (fieldsOf w).sa = sa ∧ (fieldsOf w).funct = funct := by
  constructor
  · rintro rfl
    simp
  · rintro ⟨hop, rfl, rfl, rfl, rfl, rfl⟩
    exact (encodeR_fieldsOf hop).symm

end

/-! ## The decoder as a lookup (R56, R67) -/

/-- The non-zero opcodes in the order of R67's dispatch, each with the instruction it stands for. -/
def primaryRows (f : Fields) : List (Σ _ : BitVec 6, Instr) := jTypeRows f.target ++ iTypeRows f.rs f.rt f.imm

theorem primaryRows_keys (f : Fields) : (primaryRows f).keys = primaryOpcodes := rfl

theorem rTypeRows_keys (fm : FunctMap) (rs rt rd : Reg) (sa : BitVec 5) :
    (rTypeRows fm rs rt rd sa).keys = fm.values := rfl

/-- R67: under a non-zero opcode the dispatch is the lookup in the rows. -/
theorem decodeFields_eq_dlookup (fm : FunctMap) {f : Fields} (h : f.opcode ≠ 0) :
    decodeFields fm f = ((primaryRows f).dlookup f.opcode).elim (.error (.undefinedOpcode f.opcode)) .ok := by
  rw [decodeFields, if_neg h]
  simp only [primaryRows, jTypeRows, iTypeRows, List.cons_append, List.nil_append, elim_dlookup_cons,
    List.dlookup_nil, Option.elim_none]

/-- A lookup by a key that stands in no row is rejected. -/
theorem elim_dlookup_of_not_mem {α β ε : Type} [DecidableEq α] {a : α} {l : List (Σ _ : α, β)} (h : a ∉ l.keys)
    (e : ε) : (l.dlookup a).elim (.error e) .ok = (.error e : Except ε β) := by
  rw [List.dlookup_eq_none.2 h, Option.elim_none]

/-- A lookup answers the value of a row of its key. -/
theorem mem_of_elim_dlookup_eq_ok {α β ε : Type} [DecidableEq α] {a : α} {b : β} {l : List (Σ _ : α, β)} {e : ε}
    (h : (l.dlookup a).elim (Except.error e) Except.ok = .ok b) : ⟨a, b⟩ ∈ l := by
  cases hlookup : l.dlookup a with
  | none => simp [hlookup] at h
  | some c =>
    rw [hlookup, Option.elim_some, Except.ok.injEq] at h
    exact h ▸ List.of_mem_dlookup hlookup

/-- A lookup answers for every key of a row. -/
theorem exists_elim_dlookup_eq_ok {α β ε : Type} [DecidableEq α] {a : α} {l : List (Σ _ : α, β)} (h : a ∈ l.keys)
    (e : ε) : ∃ b, (l.dlookup a).elim (.error e) .ok = (.ok b : Except ε β) := by
  obtain ⟨b, hb⟩ := Option.isSome_iff_exists.1 (List.dlookup_isSome.2 h)
  exact ⟨b, by rw [hb, Option.elim_some]⟩

/-- The row of the instruction a word decodes to: one of `funct` under opcode 0, or one of the opcode. -/
theorem row_of_decode {fm : FunctMap} {w : Word} {i : Instr} (h : decode fm w = .ok i) :
    ((fieldsOf w).opcode = 0 ∧
      ⟨(fieldsOf w).funct, i⟩ ∈ rTypeRows fm (fieldsOf w).rs (fieldsOf w).rt (fieldsOf w).rd (fieldsOf w).sa) ∨
    ((fieldsOf w).opcode ≠ 0 ∧ ⟨(fieldsOf w).opcode, i⟩ ∈ primaryRows (fieldsOf w)) := by
  by_cases hop : (fieldsOf w).opcode = 0
  · rw [decode, decodeFields, if_pos hop, decodeFunct_eq_dlookup] at h
    exact .inl ⟨hop, mem_of_elim_dlookup_eq_ok h⟩
  · rw [decode, decodeFields_eq_dlookup fm hop] at h
    exact .inr ⟨hop, mem_of_elim_dlookup_eq_ok h⟩

/-- Everything a word that decodes can be: a word of one of the three formats, with the row of its instruction. -/
theorem decode_eq_ok_cases {fm : FunctMap} {w : Word} {i : Instr} (h : decode fm w = .ok i) :
    (∃ rs rt rd sa funct, w = encodeR rs rt rd sa funct ∧ ⟨funct, i⟩ ∈ rTypeRows fm rs rt rd sa) ∨
    (∃ opcode rs rt imm, w = encodeI opcode rs rt imm ∧ ⟨opcode, i⟩ ∈ iTypeRows rs rt imm) ∨
    ∃ opcode target, w = encodeJ opcode target ∧ ⟨opcode, i⟩ ∈ jTypeRows target := by
  rcases row_of_decode h with ⟨hop, hrow⟩ | ⟨-, hrow⟩
  · exact .inl ⟨_, _, _, _, _, (encodeR_fieldsOf hop).symm, hrow⟩
  · rcases List.mem_append.1 hrow with hrow | hrow
    · exact .inr (.inr ⟨_, _, (encodeJ_fieldsOf w).symm, hrow⟩)
    · exact .inr (.inl ⟨_, _, _, _, (encodeI_fieldsOf w).symm, hrow⟩)

/-! ## The bits an instruction uses (R55) -/

section

variable {w : Word} {rs rt rd : Reg} {sa : BitVec 5} {funct : BitVec 6}

/-- The fields of a masked word are its fields under the fields of the mask. -/
theorem fieldsOf_and (w m : Word) : fieldsOf (w &&& m) =
    ⟨(fieldsOf w).opcode &&& (fieldsOf m).opcode, (fieldsOf w).rs &&& (fieldsOf m).rs,
      (fieldsOf w).rt &&& (fieldsOf m).rt, (fieldsOf w).rd &&& (fieldsOf m).rd, (fieldsOf w).sa &&& (fieldsOf m).sa,
      (fieldsOf w).funct &&& (fieldsOf m).funct, (fieldsOf w).imm &&& (fieldsOf m).imm,
      (fieldsOf w).target &&& (fieldsOf m).target⟩ := by
  simp only [fieldsOf, BitVec.extractLsb'_and]

/-- The mask of the three-register forms leaves out `sa` alone. -/
theorem and_mask_eq_encodeR_iff_of_three_registers :
    w &&& 0xFFFFF83F = encodeR rs rt rd 0 funct ↔ ∃ sa, w = encodeR rs rt rd sa funct := by
  have hmask : fieldsOf 0xFFFFF83F =
      ⟨.allOnes 6, .allOnes 5, .allOnes 5, .allOnes 5, 0, .allOnes 6, 0xF83F, 0x3FFF83F⟩ := by
    decide
  simp only [eq_encodeR_iff, fieldsOf_and, hmask, BitVec.and_allOnes]
  simp

/-- The mask of the shifts leaves out `rs` alone. -/
theorem and_mask_eq_encodeR_iff_of_shift :
    w &&& 0xFC1FFFFF = encodeR 0 rt rd sa funct ↔ ∃ rs, w = encodeR rs rt rd sa funct := by
  have hmask : fieldsOf 0xFC1FFFFF =
      ⟨.allOnes 6, 0, .allOnes 5, .allOnes 5, .allOnes 5, .allOnes 6, 0xFFFF, 0x01FFFFF⟩ := by
    decide
  simp only [eq_encodeR_iff, fieldsOf_and, hmask, BitVec.and_allOnes]
  simp

/-- The mask of `jr` leaves out `rt`, `rd` and `sa`. -/
theorem and_mask_eq_encodeR_iff_of_jr :
    w &&& 0xFFE0003F = encodeR rs 0 0 0 funct ↔ ∃ rt rd sa, w = encodeR rs rt rd sa funct := by
  have hmask : fieldsOf 0xFFE0003F =
      ⟨.allOnes 6, .allOnes 5, 0, 0, 0, .allOnes 6, 0x003F, 0x3E0003F⟩ := by
    decide
  simp only [eq_encodeR_iff, fieldsOf_and, hmask, BitVec.and_allOnes]
  simp

end

end Sys2Proof

/-! PROOF. The encoding (30_encoding.md R52 to R58): the round trip, the ignored fields, and the defined words with their
count. -/

namespace Sys2Proof

/-! ## Decoding is matching the used bits -/

/-- R55, R57: an R-type word has the used bits of its instruction's encoding. -/
theorem encodeR_and_usedMask {fm : FunctMap} {rs rt rd : Reg} {sa : BitVec 5} {funct : BitVec 6} {i : Instr}
    (hrow : ⟨funct, i⟩ ∈ rTypeRows fm rs rt rd sa) : encodeR rs rt rd sa funct &&& usedMask i = encode fm i := by
  simp only [rTypeRows, List.mem_cons, Sigma.mk.injEq, heq_eq_eq, List.not_mem_nil, or_false] at hrow
  rcases hrow with ⟨rfl, rfl⟩ | ⟨rfl, rfl⟩ | ⟨rfl, rfl⟩ | ⟨rfl, rfl⟩ | ⟨rfl, rfl⟩ | ⟨rfl, rfl⟩ | ⟨rfl, rfl⟩ |
    ⟨rfl, rfl⟩ | ⟨rfl, rfl⟩ | ⟨rfl, rfl⟩ | ⟨rfl, rfl⟩
  -- The rows in their order: three shifts, `jr`, and the seven three-register forms.
  · exact and_mask_eq_encodeR_iff_of_shift.2 ⟨_, rfl⟩
  · exact and_mask_eq_encodeR_iff_of_shift.2 ⟨_, rfl⟩
  · exact and_mask_eq_encodeR_iff_of_shift.2 ⟨_, rfl⟩
  · exact and_mask_eq_encodeR_iff_of_jr.2 ⟨_, _, _, rfl⟩
  all_goals exact and_mask_eq_encodeR_iff_of_three_registers.2 ⟨_, rfl⟩

/-- R55: an instruction of the other two formats uses every bit. -/
theorem encodeI_and_usedMask {opcode : BitVec 6} {rs rt : Reg} {imm : BitVec 16} {i : Instr}
    (hrow : ⟨opcode, i⟩ ∈ iTypeRows rs rt imm) (fm : FunctMap) :
    encodeI opcode rs rt imm &&& usedMask i = encode fm i := by
  simp only [iTypeRows, List.mem_cons, Sigma.mk.injEq, heq_eq_eq, List.not_mem_nil, or_false] at hrow
  rcases hrow with ⟨rfl, rfl⟩ | ⟨rfl, rfl⟩ | ⟨rfl, rfl⟩ | ⟨rfl, rfl⟩ | ⟨rfl, rfl⟩ | ⟨rfl, rfl⟩ | ⟨rfl, rfl⟩ |
    ⟨rfl, rfl⟩ | ⟨rfl, rfl⟩ <;>
  exact BitVec.and_allOnes

theorem encodeJ_and_usedMask {opcode : BitVec 6} {target : BitVec 26} {i : Instr}
    (hrow : ⟨opcode, i⟩ ∈ jTypeRows target) (fm : FunctMap) :
    encodeJ opcode target &&& usedMask i = encode fm i := by
  simp only [jTypeRows, List.mem_cons, Sigma.mk.injEq, heq_eq_eq, List.not_mem_nil, or_false] at hrow
  rcases hrow with ⟨rfl, rfl⟩ | ⟨rfl, rfl⟩ <;>
  exact BitVec.and_allOnes

/-- R55: a word decodes to the instruction whose encoding has its used bits. -/
theorem and_usedMask_of_decode {fm : FunctMap} {w : Word} {i : Instr} (h : decode fm w = .ok i) :
    w &&& usedMask i = encode fm i := by
  rcases decode_eq_ok_cases h with ⟨_, _, _, _, _, rfl, hrow⟩ | ⟨_, _, _, _, rfl, hrow⟩ | ⟨_, _, rfl, hrow⟩
  · exact encodeR_and_usedMask hrow
  · exact encodeI_and_usedMask hrow fm
  · exact encodeJ_and_usedMask hrow fm

/-- R55, R67, R68: under a legal map every word with the used bits of an instruction's encoding decodes to it. -/
theorem decode_of_and_usedMask {fm : FunctMap} (hfm : fm.wf = true) {w : Word} {i : Instr}
    (h : w &&& usedMask i = encode fm i) : decode fm w = .ok i := by
  cases i with
  | add | sub | and | or | xor | nor | slt =>
    obtain ⟨sa, rfl⟩ := and_mask_eq_encodeR_iff_of_three_registers.1 h
    exact decode_encodeR_of_mem hfm (by simp [rTypeRows])
  | sll | srl | sra =>
    obtain ⟨rs, rfl⟩ := and_mask_eq_encodeR_iff_of_shift.1 h
    exact decode_encodeR_of_mem hfm (by simp [rTypeRows])
  | jr =>
    obtain ⟨rt, rd, sa, rfl⟩ := and_mask_eq_encodeR_iff_of_jr.1 h
    exact decode_encodeR_of_mem hfm (by simp [rTypeRows])
  | addi | andi | ori | xori | slti | lw | sw | beq | bne =>
    obtain rfl := BitVec.and_allOnes.symm.trans h
    exact decode_encodeI_of_mem fm (by simp [iTypeRows])
  | j | jal =>
    obtain rfl := BitVec.and_allOnes.symm.trans h
    exact decode_encodeJ_of_mem fm (by simp [jTypeRows])

/-- Settles O51: decoding to `i` says no more of a word than its bits under `usedMask i`. -/
theorem ignoredFieldsChangeNothing : Obligations.IgnoredFieldsChangeNothing := by
  intro fm hfm w i h
  have hw := and_usedMask_of_decode h
  exact ⟨fun w' hw' => decode_of_and_usedMask hfm (hw'.trans hw), hw.symm⟩

/-! ## The round trip -/

/-- R55: the encoding is 0 in every field the instruction ignores. -/
theorem encode_and_usedMask (fm : FunctMap) (i : Instr) : encode fm i &&& usedMask i = encode fm i := by
  cases i with
  | add | sub | and | or | xor | nor | slt => exact and_mask_eq_encodeR_iff_of_three_registers.2 ⟨_, rfl⟩
  | sll | srl | sra => exact and_mask_eq_encodeR_iff_of_shift.2 ⟨_, rfl⟩
  | jr => exact and_mask_eq_encodeR_iff_of_jr.2 ⟨_, _, _, rfl⟩
  | addi | andi | ori | xori | slti | lw | sw | beq | bne | j | jal => exact BitVec.and_allOnes

theorem decode_encode {fm : FunctMap} (hfm : fm.wf = true) (i : Instr) : decode fm (encode fm i) = .ok i :=
  decode_of_and_usedMask hfm (encode_and_usedMask fm i)

/-- R37: the decoder of byte strings reads a word's bytes in memory order as the word. -/
theorem decodeBytes_bytesOfWord {fm : FunctMap} {w : Word} {i : Instr} (h : decode fm w = .ok i) (rest : List Byte) :
    decodeBytes fm (bytesOfWord w ++ rest) = .ok (i, rest) := by
  simp [bytesOfWord, decodeBytes, Machine.wordOfBytes_wordByte, h]

/-- Settles O50: the encoding has its own used bits, so it decodes to its instruction, as a word and as bytes. -/
theorem encodeThenDecodeIsIdentity : Obligations.EncodeThenDecodeIsIdentity :=
  fun _ hfm i => ⟨decode_encode hfm i, decodeBytes_bytesOfWord (decode_encode hfm i)⟩

/-! ## The defined words (R58) -/

section

variable (fm : FunctMap) {w : Word}

theorem definedWord_of_opcode_zero (hop : (fieldsOf w).opcode = 0) :
    definedWord fm w = decide ((fieldsOf w).funct ∈ fm.values) := by
  rw [definedWord_eq, hop]
  rfl

theorem definedWord_of_opcode_ne_zero (hop : (fieldsOf w).opcode ≠ 0) :
    definedWord fm w = decide ((fieldsOf w).opcode ∈ primaryOpcodes) := by
  have hne : decide ((fieldsOf w).opcode = 0x00#6) = false := decide_eq_false hop
  rw [definedWord_eq, hne, Bool.false_and, Bool.or_false]

theorem exists_decode_of_definedWord (h : definedWord fm w = true) : ∃ i, decode fm w = .ok i := by
  by_cases hop : (fieldsOf w).opcode = 0
  · rw [definedWord_of_opcode_zero fm hop, decide_eq_true_eq] at h
    rw [decode, decodeFields, if_pos hop, decodeFunct_eq_dlookup]
    exact exists_elim_dlookup_eq_ok h _
  · rw [definedWord_of_opcode_ne_zero fm hop, decide_eq_true_eq] at h
    rw [decode, decodeFields_eq_dlookup fm hop]
    exact exists_elim_dlookup_eq_ok h _

theorem decode_of_not_definedWord (h : definedWord fm w = false) :
    decode fm w = .error (if (fieldsOf w).opcode = 0 then .undefinedFunct (fieldsOf w).funct
      else .undefinedOpcode (fieldsOf w).opcode) := by
  by_cases hop : (fieldsOf w).opcode = 0
  · rw [definedWord_of_opcode_zero fm hop, decide_eq_false_iff_not] at h
    rw [decode, decodeFields, if_pos hop, if_pos hop, decodeFunct_eq_dlookup]
    exact elim_dlookup_of_not_mem h _
  · rw [definedWord_of_opcode_ne_zero fm hop, decide_eq_false_iff_not] at h
    rw [decode, decodeFields_eq_dlookup fm hop, if_neg hop]
    exact elim_dlookup_of_not_mem h _

/-- R58: the words that decode are the defined ones. -/
theorem exists_decode_iff_definedWord : (∃ i, decode fm w = .ok i) ↔ definedWord fm w = true := by
  refine ⟨fun ⟨i, hi⟩ => ?_, exists_decode_of_definedWord fm⟩
  by_contra hundef
  rw [decode_of_not_definedWord fm (Bool.eq_false_iff.2 hundef)] at hi
  cases hi

theorem definedWord_of_decode_error {e : DecodeReject} (h : decode fm w = .error e) : definedWord fm w = false := by
  by_contra hdef
  obtain ⟨i, hi⟩ := exists_decode_of_definedWord fm (Bool.of_not_eq_false hdef)
  cases hi.symm.trans h

end

/-- Settles O52: the keys of the decoder's rows are the codes `definedWord` lists. -/
theorem instructionsAreTheDefinedWords : Obligations.InstructionsAreTheDefinedWords :=
  fun fm _ _ => ⟨exists_decode_iff_definedWord fm, decode_of_not_definedWord fm⟩

/-! ## The count of the defined words -/

/-- A word as its opcode, the 20 bits in the middle, and its funct. -/
def wordParts (w : Word) : BitVec 6 × BitVec 20 × BitVec 6 :=
  (w.extractLsb' 26 6, w.extractLsb' 6 20, w.extractLsb' 0 6)

/-- The word of the three parts. -/
def wordOfParts (p : BitVec 6 × BitVec 20 × BitVec 6) : Word := p.1 ++ p.2.1 ++ p.2.2

theorem wordOfParts_wordParts (w : Word) : wordOfParts (wordParts w) = w := by
  rw [wordOfParts, wordParts, BitVec.extractLsb'_append_extractLsb'_eq_extractLsb' (by decide),
    BitVec.extractLsb'_append_extractLsb'_eq_extractLsb' (by decide)]
  exact BitVec.extractLsb'_eq_self

theorem wordParts_wordOfParts (p : BitVec 6 × BitVec 20 × BitVec 6) : wordParts (wordOfParts p) = p := by
  rw [wordParts, wordOfParts, BitVec.extractLsb'_append_eq_of_le (by decide),
    BitVec.extractLsb'_append_eq_of_le (by decide), BitVec.extractLsb'_append_eq_of_le (by decide),
    BitVec.extractLsb'_append_eq_of_add_le (by decide), BitVec.extractLsb'_append_eq_of_add_le (by decide)]
  exact Prod.ext BitVec.extractLsb'_eq_self (Prod.ext BitVec.extractLsb'_eq_self BitVec.extractLsb'_eq_self)

/-- A word and its three parts are the same data. -/
def wordPartsEquiv : Word ≃ BitVec 6 × BitVec 20 × BitVec 6 :=
  ⟨wordParts, wordOfParts, wordOfParts_wordParts, wordParts_wordOfParts⟩

/-- The parts of the defined words: a non-zero opcode of R56 with any other bits, or opcode 0 with a funct of the map. -/
def definedParts (fm : FunctMap) : Finset (BitVec 6 × BitVec 20 × BitVec 6) :=
  primaryOpcodes.toFinset ×ˢ Finset.univ ∪ {0} ×ˢ Finset.univ ×ˢ fm.values.toFinset

theorem wordParts_mem_definedParts_iff (fm : FunctMap) (w : Word) :
    wordParts w ∈ definedParts fm ↔ definedWord fm w = true := by
  simp [wordParts, definedParts, definedWord, and_comm, eq_comm (a := 0#6)]

theorem card_definedParts {fm : FunctMap} (hfm : fm.wf = true) :
    (definedParts fm).card = 11 * 2 ^ 26 + 11 * 2 ^ 20 := by
  obtain ⟨-, hnodup⟩ := FunctMap.wf_iff.1 hfm
  have hdisj : Disjoint (primaryOpcodes.toFinset ×ˢ (Finset.univ : Finset (BitVec 20 × BitVec 6)))
      ({0} ×ˢ Finset.univ ×ˢ fm.values.toFinset) :=
    Finset.disjoint_product.2 (.inl (by decide))
  have hprimary : primaryOpcodes.toFinset.card = 11 := by decide
  have hvalues : fm.values.toFinset.card = 11 := List.toFinset_card_of_nodup hnodup
  have hbits (n : Nat) : (Finset.univ : Finset (BitVec n)).card = 2 ^ n := by
    rw [Finset.card_univ, ← FinEnum.card_eq_fintypeCard, FinEnum.card_bitVec]
  rw [definedParts, Finset.card_union_of_disjoint hdisj, Finset.card_product, Finset.card_product, Finset.card_product,
    ← Finset.univ_product_univ, Finset.card_product, hprimary, hvalues, hbits, hbits, Finset.card_singleton]
  norm_num

/-- Settles O53: the defined words are in bijection with `definedParts`. -/
theorem countOfDefinedWords : Obligations.CountOfDefinedWords := by
  intro fm hfm
  rw [Nat.card_congr (wordPartsEquiv.subtypeEquiv fun w => (wordParts_mem_definedParts_iff fm w).symm),
    Nat.subtype_card (definedParts fm) fun _ => Iff.rfl, card_definedParts hfm]
  norm_num

end Sys2Proof

/-! PROOF. The opcode table and the assembler (30_encoding.md R56 to R61): a table row stands for the words of one key, and a
line of assembly in range assembles to the encoding of its instruction. -/

namespace Sys2Proof

/-! ## The opcode table -/

/-- What a table row looks at: the opcode, and under opcode 0 the funct. -/
def wordKey (w : Word) : BitVec 6 × BitVec 6 :=
  ((fieldsOf w).opcode, if (fieldsOf w).opcode = 0 then (fieldsOf w).funct else 0)

/-- The mnemonics of the table's rows with this key. -/
def mnemonicsAt (key : BitVec 6 × BitVec 6) : List String :=
  (opcodeTable.filter fun r => wordKey r.pattern = key).map TableRow.mnemonic

/-- The mask of an R-type row keeps the opcode and the funct. -/
theorem and_mask_eq_encodeR_iff_of_row {w : Word} {funct : BitVec 6} :
    w &&& 0xFC00003F = encodeR 0 0 0 0 funct ↔ (fieldsOf w).opcode = 0 ∧ (fieldsOf w).funct = funct := by
  have hmask : fieldsOf 0xFC00003F = ⟨.allOnes 6, 0, 0, 0, 0, .allOnes 6, 0x003F, 0x000003F⟩ := by decide
  simp only [eq_encodeR_iff, fieldsOf_and, hmask, BitVec.and_allOnes]
  simp

/-- The mask of the other rows keeps the opcode. -/
theorem and_mask_eq_encodeJ_iff_of_row {w : Word} {opcode : BitVec 6} :
    w &&& 0xFC000000 = encodeJ opcode 0 ↔ (fieldsOf w).opcode = opcode := by
  have hmask : fieldsOf 0xFC000000 = ⟨.allOnes 6, 0, 0, 0, 0, 0, 0, 0⟩ := by decide
  rw [← encodeJ_fieldsOf (w &&& 0xFC000000), fieldsOf_and, hmask, BitVec.and_allOnes]
  refine ⟨fun h => ?_, fun h => by rw [h]; exact congrArg (encodeJ opcode) BitVec.and_zero⟩
  simpa using congrArg (fun v => (fieldsOf v).opcode) h

/-- Each row is of one of two kinds: opcode 0 with a funct, or a non-zero opcode. -/
theorem opcodeTable_rows : ∀ r ∈ opcodeTable,
    (r.mask = 0xFC00003F ∧ r.pattern = encodeR 0 0 0 0 (fieldsOf r.pattern).funct) ∨
    (r.mask = 0xFC000000 ∧ r.pattern = encodeJ (fieldsOf r.pattern).opcode 0 ∧ (fieldsOf r.pattern).opcode ≠ 0) := by
  decide

/-- A word is a row's exactly when it has the key of the row's pattern. -/
theorem matches_iff_wordKey_eq {r : TableRow} (hr : r ∈ opcodeTable) (w : Word) :
    r.matches w = true ↔ wordKey r.pattern = wordKey w := by
  rw [TableRow.matches, decide_eq_true_eq]
  rcases opcodeTable_rows r hr with ⟨hmask, hpattern⟩ | ⟨hmask, hpattern, hop⟩
  · have hop : (fieldsOf r.pattern).opcode = 0 := by rw [hpattern, encodeR_opcode]
    rw [hmask, hpattern, and_mask_eq_encodeR_iff_of_row, ← hpattern]
    simp only [wordKey, hop, Prod.mk.injEq, if_true]
    refine ⟨fun ⟨hw, hf⟩ => ⟨hw.symm, by rw [if_pos hw, hf]⟩, fun ⟨hw, hf⟩ => ⟨hw.symm, ?_⟩⟩
    rw [hf, if_pos hw.symm]
  · rw [hmask, hpattern, and_mask_eq_encodeJ_iff_of_row, ← hpattern]
    simp only [wordKey, if_neg hop, Prod.mk.injEq]
    exact ⟨fun hw => ⟨hw.symm, by rw [hw, if_neg hop]⟩, fun ⟨hw, _⟩ => hw.symm⟩

theorem filter_matches_eq (w : Word) :
    (opcodeTable.filter fun r => r.matches w) = opcodeTable.filter fun r => wordKey r.pattern = wordKey w :=
  List.filter_congr fun r hr => by
    rw [Bool.eq_iff_iff, decide_eq_true_eq]
    exact matches_iff_wordKey_eq hr w

/-- R57: the table has one row for each funct of the default map, with the mnemonic the decoder gives it. -/
theorem mnemonicsAt_of_mem_rTypeRows {rs rt rd : Reg} {sa : BitVec 5} {funct : BitVec 6} {i : Instr}
    (hrow : ⟨funct, i⟩ ∈ rTypeRows Config.defaultFunctMap rs rt rd sa) : mnemonicsAt (0, funct) = [i.mnemonic] := by
  have hrows : (rTypeRows Config.defaultFunctMap rs rt rd sa).map (fun row => mnemonicsAt (0, row.1)) =
      (rTypeRows Config.defaultFunctMap rs rt rd sa).map fun row => [row.2.mnemonic] := rfl
  exact List.map_inj_left.1 hrows _ hrow

/-- R56: the table has one row for each non-zero opcode, with the mnemonic the decoder gives it. -/
theorem mnemonicsAt_of_mem_primaryRows {f : Fields} {opcode : BitVec 6} {i : Instr}
    (hrow : ⟨opcode, i⟩ ∈ primaryRows f) : mnemonicsAt (opcode, 0) = [i.mnemonic] := by
  have hrows : (primaryRows f).map (fun row => mnemonicsAt (row.1, 0)) =
      (primaryRows f).map fun row => [row.2.mnemonic] := rfl
  exact List.map_inj_left.1 hrows _ hrow

/-- The table gives a word that decodes one row, of its instruction's mnemonic. -/
theorem mnemonicsAt_of_decode {w : Word} {i : Instr} (h : decode Config.defaultFunctMap w = .ok i) :
    mnemonicsAt (wordKey w) = [i.mnemonic] := by
  rcases row_of_decode h with ⟨hop, hrow⟩ | ⟨hop, hrow⟩
  · rw [wordKey, hop, if_pos rfl]
    exact mnemonicsAt_of_mem_rTypeRows hrow
  · rw [wordKey, if_neg hop]
    exact mnemonicsAt_of_mem_primaryRows hrow

/-- A word is defined or not by its key. -/
theorem definedWord_congr {w w' : Word} (fm : FunctMap) (h : wordKey w = wordKey w') :
    definedWord fm w = definedWord fm w' := by
  obtain ⟨hop, hfunct⟩ := Prod.mk.inj h
  by_cases hzero : (fieldsOf w').opcode = 0
  · rw [if_pos hzero, if_pos (hop.trans hzero)] at hfunct
    rw [definedWord_eq, definedWord_eq, hop, hfunct]
  · rw [definedWord_of_opcode_ne_zero fm (hop ▸ hzero), definedWord_of_opcode_ne_zero fm hzero, hop]

theorem definedWord_pattern : ∀ r ∈ opcodeTable, definedWord Config.defaultFunctMap r.pattern = true := by decide

/-- Settles O54: a word is in the rows of its key; the words of a row are defined, and the row of a defined word has the
mnemonic of its decoding. -/
theorem decoderAgreesWithOpcodeTable : Obligations.DecoderAgreesWithOpcodeTable := by
  refine fun w => ⟨fun i h => ?_, fun ⟨e, h⟩ => ?_⟩
  · rw [filter_matches_eq]
    exact mnemonicsAt_of_decode h
  · rw [List.filter_eq_nil_iff]
    intro r hr hmatch
    have hdef := definedWord_congr Config.defaultFunctMap ((matches_iff_wordKey_eq hr w).1 hmatch)
    rw [definedWord_pattern r hr, definedWord_of_decode_error _ h] at hdef
    cases hdef

/-- Settles O55: the words are literals. -/
theorem sampleWordsDecodeAsTheSpecSays : Obligations.SampleWordsDecodeAsTheSpecSays :=
  ⟨rfl, rfl, rfl, rfl, rfl, rfl, rfl, rfl, rfl, rfl, rfl, rfl, rfl⟩

/-! ## The assembler -/

/-- R60: in range, a line assembles to a word of its instruction. -/
theorem assemblesTo_instr {fm : FunctMap} (hfm : fm.wf = true) {a : Asm} (ha : a.wf = true) :
    Machine.AssemblesTo fm a a.instr :=
  ⟨_, if_pos ha, decode_encode hfm a.instr⟩

/-- R61: `nop` is `sll 0 0 0`, whose word is 0 because every legal map has `sll` at 0x00. -/
theorem assemble_nop {fm : FunctMap} (hfm : fm.wf = true) : assemble fm .nop = some 0 := by
  obtain ⟨hsll, -⟩ := FunctMap.wf_iff.1 hfm
  show some (encodeR 0 0 0 0 fm.sll) = some 0
  rw [hsll]
  rfl

/-- The ranges of R60 as inequalities. -/
theorem Asm.wf_iff (a : Asm) : a.wf = true ↔ match a with
    | .reg _ rd rs rt => rd < 32 ∧ rs < 32 ∧ rt < 32
    | .shift _ rd rt sa => rd < 32 ∧ rt < 32 ∧ sa < 32
    | .jr rs => rs < 32
    | .imm _ rt rs v => rt < 32 ∧ rs < 32 ∧ -32768 ≤ v ∧ v ≤ 65535
    | .branch _ rs rt off => rs < 32 ∧ rt < 32 ∧ -32768 ≤ off ∧ off ≤ 32767
    | .mem _ rt v rs => rt < 32 ∧ rs < 32 ∧ -32768 ≤ v ∧ v ≤ 65535
    | .jump _ target => target < 2 ^ 26
    | .nop => True := by
  cases a <;> simp [Asm.wf, wfReg, wfImm, wfOffset, and_assoc]

theorem assemble_of_not_wf (fm : FunctMap) {a : Asm} (ha : a.wf = false) : assemble fm a = none :=
  if_neg (Bool.eq_false_iff.1 ha)

/-! ## The operands (R60) -/

/-- An operand written as the number of its field goes to that field. -/
theorem ofNat_toNat_self {n : Nat} (x : BitVec n) : BitVec.ofNat n x.toNat = x := by simp

/-- An immediate written as its unsigned or as its signed value is in range and goes to the field. -/
theorem immediate_range_and_field {v : Int} {imm : BitVec 16} (hv : v = imm.toNat ∨ v = imm.toInt) :
    (-32768 ≤ v ∧ v ≤ 65535) ∧ BitVec.ofInt 16 v = imm := by
  have hlt := imm.isLt
  have hlow := imm.le_toInt
  have hhigh := imm.toInt_lt
  rcases hv with rfl | rfl
  · exact ⟨by omega, by rw [BitVec.ofInt_natCast, ofNat_toNat_self]⟩
  · exact ⟨by omega, BitVec.ofInt_toInt⟩

/-- A branch offset written as its signed value is in range. -/
theorem offset_range (imm : BitVec 16) : -32768 ≤ imm.toInt ∧ imm.toInt ≤ 32767 := by
  have hlow := imm.le_toInt
  have hhigh := imm.toInt_lt
  omega

section

variable {fm : FunctMap} (hfm : fm.wf = true)

include hfm

theorem assemblesTo_reg {op : RegOp} {i : Reg → Reg → Reg → Instr}
    (hi : ∀ rd rs rt, (Asm.reg op rd rs rt).instr = i (.ofNat 5 rd) (.ofNat 5 rs) (.ofNat 5 rt)) (rd rs rt : Reg) :
    Machine.AssemblesTo fm (.reg op rd.toNat rs.toNat rt.toNat) (i rd rs rt) := by
  have h := assemblesTo_instr hfm ((Asm.wf_iff (.reg op rd.toNat rs.toNat rt.toNat)).2 ⟨rd.isLt, rs.isLt, rt.isLt⟩)
  rwa [hi, ofNat_toNat_self, ofNat_toNat_self, ofNat_toNat_self] at h

theorem assemblesTo_shift {op : ShiftOp} {i : Reg → Reg → BitVec 5 → Instr}
    (hi : ∀ rd rt sa, (Asm.shift op rd rt sa).instr = i (.ofNat 5 rd) (.ofNat 5 rt) (.ofNat 5 sa)) (rd rt : Reg)
    (sa : BitVec 5) : Machine.AssemblesTo fm (.shift op rd.toNat rt.toNat sa.toNat) (i rd rt sa) := by
  have h := assemblesTo_instr hfm ((Asm.wf_iff (.shift op rd.toNat rt.toNat sa.toNat)).2 ⟨rd.isLt, rt.isLt, sa.isLt⟩)
  rwa [hi, ofNat_toNat_self, ofNat_toNat_self, ofNat_toNat_self] at h

theorem assemblesTo_jr (rs : Reg) : Machine.AssemblesTo fm (.jr rs.toNat) (.jr rs) := by
  have h := assemblesTo_instr hfm ((Asm.wf_iff (.jr rs.toNat)).2 rs.isLt)
  rwa [Asm.instr, ofNat_toNat_self] at h

theorem assemblesTo_imm {op : ImmOp} {i : Reg → Reg → BitVec 16 → Instr}
    (hi : ∀ rt rs v, (Asm.imm op rt rs v).instr = i (.ofNat 5 rt) (.ofNat 5 rs) (.ofInt 16 v)) (rt rs : Reg)
    {v : Int} {imm : BitVec 16} (hv : v = imm.toNat ∨ v = imm.toInt) :
    Machine.AssemblesTo fm (.imm op rt.toNat rs.toNat v) (i rt rs imm) := by
  obtain ⟨hrange, hfield⟩ := immediate_range_and_field hv
  have h := assemblesTo_instr hfm ((Asm.wf_iff (.imm op rt.toNat rs.toNat v)).2 ⟨rt.isLt, rs.isLt, hrange⟩)
  rwa [hi, ofNat_toNat_self, ofNat_toNat_self, hfield] at h

theorem assemblesTo_branch {op : BranchOp} {i : Reg → Reg → BitVec 16 → Instr}
    (hi : ∀ rs rt off, (Asm.branch op rs rt off).instr = i (.ofNat 5 rs) (.ofNat 5 rt) (.ofInt 16 off)) (rs rt : Reg)
    (imm : BitVec 16) : Machine.AssemblesTo fm (.branch op rs.toNat rt.toNat imm.toInt) (i rs rt imm) := by
  have h := assemblesTo_instr hfm
    ((Asm.wf_iff (.branch op rs.toNat rt.toNat imm.toInt)).2 ⟨rs.isLt, rt.isLt, offset_range imm⟩)
  rwa [hi, ofNat_toNat_self, ofNat_toNat_self, BitVec.ofInt_toInt] at h

theorem assemblesTo_mem {op : MemOp} {i : Reg → Reg → BitVec 16 → Instr}
    (hi : ∀ rt v rs, (Asm.mem op rt v rs).instr = i (.ofNat 5 rt) (.ofNat 5 rs) (.ofInt 16 v)) (rt rs : Reg)
    {v : Int} {imm : BitVec 16} (hv : v = imm.toNat ∨ v = imm.toInt) :
    Machine.AssemblesTo fm (.mem op rt.toNat v rs.toNat) (i rt rs imm) := by
  obtain ⟨hrange, hfield⟩ := immediate_range_and_field hv
  have h := assemblesTo_instr hfm ((Asm.wf_iff (.mem op rt.toNat v rs.toNat)).2 ⟨rt.isLt, rs.isLt, hrange⟩)
  rwa [hi, ofNat_toNat_self, ofNat_toNat_self, hfield] at h

theorem assemblesTo_jump {op : JumpOp} {i : BitVec 26 → Instr}
    (hi : ∀ target, (Asm.jump op target).instr = i (.ofNat 26 target)) (target : BitVec 26) :
    Machine.AssemblesTo fm (.jump op target.toNat) (i target) := by
  have h := assemblesTo_instr hfm ((Asm.wf_iff (.jump op target.toNat)).2 target.isLt)
  rwa [hi, ofNat_toNat_self] at h

end

/-- Settles O56: the round trip gives each line in range its instruction, and each form's operands go to their fields. -/
theorem assembledLinesDecodeToThemselves : Obligations.AssembledLinesDecodeToThemselves := by
  refine fun fm hfm => ⟨fun a => assemblesTo_instr hfm, fun a => assemble_of_not_wf fm, assemble_nop hfm, Asm.wf_iff,
    fun rd rs rt sa imm v target hv => ?_⟩
  have hreg {op : RegOp} {i} (hi) := assemblesTo_reg hfm (op := op) (i := i) hi rd rs rt
  have hshift {op : ShiftOp} {i} (hi) := assemblesTo_shift hfm (op := op) (i := i) hi rd rt sa
  have himm {op : ImmOp} {i} (hi) := assemblesTo_imm hfm (op := op) (i := i) hi rt rs hv
  have hbranch {op : BranchOp} {i} (hi) := assemblesTo_branch hfm (op := op) (i := i) hi rs rt imm
  have hmem {op : MemOp} {i} (hi) := assemblesTo_mem hfm (op := op) (i := i) hi rt rs hv
  have hjump {op : JumpOp} {i} (hi) := assemblesTo_jump hfm (op := op) (i := i) hi target
  exact ⟨hreg fun _ _ _ => rfl, hreg fun _ _ _ => rfl, hreg fun _ _ _ => rfl, hreg fun _ _ _ => rfl,
    hreg fun _ _ _ => rfl, hreg fun _ _ _ => rfl, hreg fun _ _ _ => rfl,
    hshift fun _ _ _ => rfl, hshift fun _ _ _ => rfl, hshift fun _ _ _ => rfl, assemblesTo_jr hfm rs,
    himm fun _ _ _ => rfl, himm fun _ _ _ => rfl, himm fun _ _ _ => rfl, himm fun _ _ _ => rfl,
    himm fun _ _ _ => rfl, hbranch fun _ _ _ => rfl, hbranch fun _ _ _ => rfl,
    hmem fun _ _ _ => rfl, hmem fun _ _ _ => rfl, hjump fun _ => rfl, hjump fun _ => rfl⟩

end Sys2Proof

/-! PROOF. Renaming the registers (10_state.md R19): every instruction carries a renaming over, so no index is special. -/

namespace Sys2Proof.Machine

section

variable {f : Reg → Reg} {s s' : State} (h : Renamed f s s')

include h

theorem Renamed.setReg (hf : Function.Injective f) (r : Reg) (v : Word) :
    Renamed f (s.setReg r v) (s'.setReg (f r) v) := by
  refine ⟨fun q => ?_, h.lr, h.pc, h.mem, h.status⟩
  rw [State.setReg_reg, State.setReg_reg, h.regs]
  exact if_congr hf.eq_iff rfl rfl

theorem Renamed.setPc (target : Word) : Renamed f (s.setPc target) (s'.setPc target) :=
  ⟨h.regs, h.lr, rfl, h.mem, h.status⟩

theorem Renamed.setLr (v : Word) : Renamed f (s.setLr v) (s'.setLr v) := ⟨h.regs, rfl, h.pc, h.mem, h.status⟩

theorem Renamed.setMem (m : Memory) : Renamed f (s.setMem m) (s'.setMem m) := ⟨h.regs, h.lr, h.pc, rfl, h.status⟩

theorem Renamed.raiseAccess (acc : Access) (a : Word) : Renamed f (s.raiseAccess acc a) (s'.raiseAccess acc a) := by
  refine ⟨h.regs, h.lr, h.pc, h.mem, ?_⟩
  rw [State.raiseAccess_status, State.raiseAccess_status, State.ipc, State.ipc, h.pc]

/-- A result that is the same in both states goes to the register and to its renaming. -/
theorem Renamed.writeBack (hf : Function.Injective f) (r : Reg) {v v' : Word} (hv : v' = v) :
    ∃ t t', writeBack r v s = .next t ∧ writeBack (f r) v' s' = .next t' ∧ Renamed f t t' :=
  ⟨_, _, rfl, hv ▸ rfl, h.setReg hf r v⟩

/-- A branch that is taken in both states or in none. -/
theorem Renamed.branchIf {taken taken' : Bool} (htaken : taken' = taken) (imm : BitVec 16) :
    ∃ t t', branchIf taken imm s = .next t ∧ branchIf taken' imm s' = .next t' ∧ Renamed f t t' := by
  refine ⟨_, _, branchIf_eq s taken imm, branchIf_eq s' taken' imm, ?_⟩
  rw [htaken, h.pc]
  exact h.setPc _

variable (p : Params) (rt rs : Reg) (imm : BitVec 16)

theorem Renamed.loadWord (hf : Function.Injective f) :
    ∃ t t', loadWord p rt rs imm s = .next t ∧ loadWord p (f rt) (f rs) imm s' = .next t' ∧ Renamed f t t' := by
  simp only [Machine.loadWord, h.regs, h.mem]
  by_cases ha : eaAllowed p.eaWrap (s.reg rs) imm = true
  · cases memRead p.memSize s.mem (eaWord (s.reg rs) imm) with
    | some v => exact ⟨_, _, if_pos ha, if_pos ha, h.setReg hf rt v⟩
    | none => exact ⟨_, _, if_pos ha, if_pos ha, h.raiseAccess .load _⟩
  · exact ⟨_, _, if_neg ha, if_neg ha, h.raiseAccess .load _⟩

theorem Renamed.storeWord :
    ∃ t t', storeWord p rt rs imm s = .next t ∧ storeWord p (f rt) (f rs) imm s' = .next t' ∧ Renamed f t t' := by
  simp only [Machine.storeWord, h.regs, h.mem]
  by_cases ha : eaAllowed p.eaWrap (s.reg rs) imm = true
  · cases memWrite p.memSize s.mem (eaWord (s.reg rs) imm) (s.reg rt) with
    | some m => exact ⟨_, _, if_pos ha, if_pos ha, h.setMem m⟩
    | none => exact ⟨_, _, if_pos ha, if_pos ha, h.raiseAccess .store _⟩
  · exact ⟨_, _, if_neg ha, if_neg ha, h.raiseAccess .store _⟩

end

/-- Settles O37: the operands hold the same words in both states, so each instruction makes the same update, of a
register and of its renaming. -/
theorem registersCanBeRenamed : Obligations.RegistersCanBeRenamed := by
  intro f hf i s s' h
  cases i with
  | add rd rs rt | sub rd rs rt | and rd rs rt | or rd rs rt | xor rd rs rt | nor rd rs rt | slt rd rs rt =>
    exact h.writeBack hf rd (by rw [h.regs, h.regs])
  | sll rd rt sa | srl rd rt sa | sra rd rt sa => exact h.writeBack hf rd (by rw [h.regs])
  | addi rt rs imm | andi rt rs imm | ori rt rs imm | xori rt rs imm | slti rt rs imm =>
    exact h.writeBack hf rt (by rw [h.regs])
  | lw rt rs imm => exact h.loadWord Config.params rt rs imm hf
  | sw rt rs imm => exact h.storeWord Config.params rt rs imm
  | beq rs rt imm | bne rs rt imm => exact h.branchIf (by rw [h.regs, h.regs]) imm
  | j target => exact ⟨_, _, rfl, rfl, h.pc ▸ h.setPc _⟩
  | jal target => exact ⟨_, _, rfl, rfl, h.pc ▸ (h.setLr _).setPc _⟩
  | jr rs => exact ⟨_, _, rfl, rfl, h.regs rs ▸ h.setPc _⟩

end Sys2Proof.Machine

/-! PROOF. The invariant of a run (10_state.md section 6, 60_exceptions.md R99 to R101): reset meets it and every step keeps
it, under every choice of the parameters. -/

namespace Sys2Proof.Machine

section

variable {p : Params} {s t : State}

/-! ## What an instruction can do to memory and the status -/

/-- R88, R101: why a load or store at `base + imm` enters FATAL, in the words of its record. -/
def AccessRefused (p : Params) (base : Word) (imm : BitVec 16) : Prop :=
  inBounds p.memSize (eaWord base imm) = false ∨ (p.eaWrap = .fatal ∧ eaFits base imm = false)

/-- One of the two checks of an access fails. -/
theorem accessRefused_of_check_fails {base : Word} {imm : BitVec 16}
    (h : eaAllowed p.eaWrap base imm = false ∨ ¬ (eaWord base imm).toNat + 3 < p.memSize) :
    AccessRefused p base imm := by
  rcases h with hmode | hout
  · refine .inr ?_
    cases hwrap : p.eaWrap with
    | wrap => simp [hwrap, eaAllowed] at hmode
    | fatal => exact ⟨rfl, by simpa [hwrap, eaAllowed] using hmode⟩
  · exact .inl (Bool.eq_false_iff.2 fun hin => hout (inBounds_iff.1 hin))

/-- Under any parameters an instruction keeps the status, and memory but for a word in bounds, or it is a load or a store
whose access is refused. -/
theorem execUnder_cases {i : Instr} (h : execUnder p i s = .next t) :
    (t.status = s.status ∧ (t.mem = s.mem ∨ ∃ a v, a + 3 < p.memSize ∧ t.mem = s.mem.putWord a v)) ∨
    (∃ rt rs imm, i = .lw rt rs imm ∧ t = s.raiseAccess .load (eaWord (s.reg rs) imm) ∧
      AccessRefused p (s.reg rs) imm) ∨
    (∃ rt rs imm, i = .sw rt rs imm ∧ t = s.raiseAccess .store (eaWord (s.reg rs) imm) ∧
      AccessRefused p (s.reg rs) imm) := by
  cases i with
  | lw rt rs imm =>
    rcases loadWord_cases p s rt rs imm with ⟨-, -, hload⟩ | ⟨hrefused, hload⟩
    · cases hload.symm.trans h
      exact .inl ⟨rfl, .inl rfl⟩
    · cases hload.symm.trans h
      exact .inr (.inl ⟨rt, rs, imm, rfl, rfl, accessRefused_of_check_fails hrefused⟩)
  | sw rt rs imm =>
    rcases storeWord_cases p s rt rs imm with ⟨-, hbounds, hstore⟩ | ⟨hrefused, hstore⟩
    · cases hstore.symm.trans h
      exact .inl ⟨rfl, .inr ⟨_, _, hbounds, rfl⟩⟩
    · cases hstore.symm.trans h
      exact .inr (.inr ⟨rt, rs, imm, rfl, rfl, accessRefused_of_check_fails hrefused⟩)
  | beq rs rt imm | bne rs rt imm =>
    cases (branchIf_eq s _ imm).symm.trans h
    exact .inl ⟨rfl, .inl rfl⟩
  | add | sub | and | or | xor | nor | slt | sll | srl | sra | addi | andi | ori | xori | slti | j | jal | jr =>
    cases h
    exact .inl ⟨rfl, .inl rfl⟩

/-! ## The invariant of the next state -/

/-- Entering FATAL with a true record keeps the invariant, whatever `pc` is. -/
theorem Inv.of_fatal (h : Inv p s) (hmem : t.mem = s.mem) {info : FatalInfo} (hstatus : t.status = .fatal info)
    (hrecord : RecordSound p t info) : Inv p t := by
  refine ⟨hmem ▸ h.canonical, hmem ▸ h.within, fun info' hinfo => ?_⟩
  cases hstatus.symm.trans hinfo
  exact hrecord

/-- A Running state needs no record. -/
theorem Inv.of_running (hwf : t.mem.wf = true) (hwithin : t.mem.within p.memSize = true)
    (hstatus : t.status = .running) : Inv p t :=
  ⟨hwf, hwithin, fun _ hinfo => by cases hstatus.symm.trans hinfo⟩

theorem Inv.raiseFetch (h : Inv p s) (hb : ¬ s.pc.toNat + 3 < p.memSize) : Inv p s.raiseFetch :=
  h.of_fatal rfl rfl ⟨Bool.eq_false_iff.2 fun hin => hb (inBounds_iff.1 hin), rfl, rfl⟩

/-- R58, R100: the word at `pc` that does not decode is no defined word. -/
theorem Inv.raiseDecode (h : Inv p s) (hb : s.pc.toNat + 3 < p.memSize) {e : DecodeReject}
    (he : decode p.functMap (s.mem.wordAt s.pc.toNat) = .error e) :
    Inv p (s.advance.raiseDecode (s.mem.wordAt s.pc.toNat)) := by
  refine h.of_fatal rfl (State.raiseDecode_status ..) ?_
  rw [State.advance_ipc]
  exact ⟨inBounds_iff.2 hb, rfl, definedWord_of_decode_error _ he, rfl, rfl, rfl⟩

/-- An instruction at `pc`, executed after the fetch advance, keeps the invariant. -/
theorem Inv.execUnder (h : Inv p s) (hs : s.status = .running) (hb : s.pc.toNat + 3 < p.memSize) {i : Instr}
    (hd : decode p.functMap (s.mem.wordAt s.pc.toNat) = .ok i) (ht : execUnder p i s.advance = .next t) : Inv p t := by
  rcases execUnder_cases ht with ⟨hstatus, hmem | ⟨a, v, ha, hmem⟩⟩ | ⟨rt, rs, imm, rfl, rfl, hrefused⟩ |
    ⟨rt, rs, imm, rfl, rfl, hrefused⟩
  · exact .of_running (hmem ▸ h.canonical) (hmem ▸ h.within) (hstatus.trans hs)
  · exact .of_running (hmem ▸ Memory.wf_putWord h.canonical a v) (hmem ▸ Memory.within_putWord h.within ha v)
      (hstatus.trans hs)
  · refine h.of_fatal rfl (State.raiseAccess_status ..) ?_
    rw [State.advance_ipc]
    exact ⟨inBounds_iff.2 hb, rfl, rt, rs, imm, hd, rfl, hrefused⟩
  · refine h.of_fatal rfl (State.raiseAccess_status ..) ?_
    rw [State.advance_ipc]
    exact ⟨inBounds_iff.2 hb, rfl, rt, rs, imm, hd, rfl, hrefused⟩

theorem Inv.stepUnder (h : Inv p s) (hstep : stepUnder p s = .next t) : Inv p t := by
  rcases stepWith_cases p s (Machine.execUnder p) with ⟨_, -, hfault⟩ | ⟨-, hb, hnext⟩ | ⟨-, hb, ⟨_, he⟩, hnext⟩ |
    ⟨hs, hb, i, hd, hnext⟩
  · cases hfault.symm.trans hstep
  · cases hnext.symm.trans hstep
    exact h.raiseFetch hb
  · cases hnext.symm.trans hstep
    exact h.raiseDecode hb he
  · exact h.execUnder hs hb hd (hnext.symm.trans hstep)

end

/-- Settles O46: one case for each way a step can end; the step of the hardware is `stepUnder` at its parameters. -/
theorem everyStepKeepsTheInvariant : Obligations.EveryStepKeepsTheInvariant :=
  ⟨fun s _ h hstep => h.stepUnder ((step_eq_stepUnder s).symm.trans hstep), fun _ _ _ _ h hstep => h.stepUnder hstep⟩

/-! ## Reset -/

theorem inv_reset (p : Params) : Inv p State.reset := .of_running State.reset_mem_wf rfl rfl

/-- R102, R116: a reset starts in the reset state with the image in memory, and only if the image fits. -/
theorem eq_of_hostReset_eq_started {size : Nat} {image : List Byte} {s t : State}
    (h : hostReset size image s = .started t) :
    image.length ≤ size ∧ t = State.reset.setMem (Memory.ofImage 0 image) := by
  rcases hostReset_cases size image s with ⟨hfits, hstarted⟩ | ⟨-, hrefused⟩
  · exact ⟨hfits, ResetAnswer.started.inj (h.symm.trans hstarted)⟩
  · cases hrefused.symm.trans h

/-- Settles O47: the loaded memory is canonical, and in range because the image fits. -/
theorem resetMeetsTheInvariant : Obligations.ResetMeetsTheInvariant := by
  refine ⟨inv_reset Config.params, fun p image s t h => ?_⟩
  obtain ⟨hfits, rfl⟩ := eq_of_hostReset_eq_started h
  exact .of_running (Memory.wf_ofImage image) (Memory.within_ofImage (by rwa [Nat.zero_add])) rfl

/-- Settles O49: the state that a reset starts is `State.reset` but for memory, which the empty image leaves empty. -/
theorem resetClearsTheMachine : Obligations.ResetClearsTheMachine := by
  refine fun size image s => ⟨fun hfits => ⟨_, hostReset_of_length_le hfits s, State.reset_reg, rfl, rfl, rfl⟩, ?_⟩
  exact hostReset_of_length_le (Nat.zero_le size) s

end Sys2Proof.Machine

/-! PROOF. What is written and when FATAL is entered (10_state.md R31, 40_cycle.md R63, 60_exceptions.md R99 to R104): the
frames of the general registers and of memory, and the three places where a step can raise. -/

namespace Sys2Proof.Machine

/-! ## The writers (R31) -/

/-- R31: no register but the destination is written. -/
theorem exec_reg_of_ne_destination {i : Instr} {s t : State} (h : exec i s = .next t) {r : Reg}
    (hr : destination i ≠ some r) : t.reg r = s.reg r := by
  cases exec_effect h with
  | result hdest v => exact s.setReg_reg_other (fun heq => hr (hdest.trans (congrArg some heq.symm))) v
  | transfer | link | store | loadFault | storeFault => rfl

/-- Settles O35: every instruction answers (`exec_answers`), and no effect writes another register. -/
theorem onlyTheDestinationIsWritten : Obligations.OnlyTheDestinationIsWritten := by
  intro i s
  obtain ⟨t, ht⟩ := exec_answers s i
  exact ⟨t, ht, fun _ hr => exec_reg_of_ne_destination ht hr⟩

/-- Settles O36: of the effects only `store` changes memory. -/
theorem onlyStoreWordChangesMemory : Obligations.OnlyStoreWordChangesMemory := by
  intro i s t hi h
  cases exec_effect h with
  | store rt rs imm => exact absurd rfl (hi rt rs imm)
  | result | transfer | link | loadFault | storeFault => exact fun _ => rfl

/-! ## The three places where a step raises -/

section

variable {s : State}

/-- R100: the record names the address the word was fetched from. -/
theorem State.advance_raiseDecode (s : State) (w : Word) : s.advance.raiseDecode w =
    s.advance.raise (.decodeFatal s.pc w (w.extractLsb' 26 6) (w.extractLsb' 0 6)) := by
  rw [State.raiseDecode, State.advance_ipc]
  rfl

/-- R58, R100: a word in bounds that is no instruction raises DecodeFatal after the fetch advance. -/
theorem step_of_decode_error {e : DecodeReject} (hs : s.status = .running)
    (hb : inBounds Config.params.memSize s.pc = true)
    (he : decode Config.params.functMap (s.mem.wordAt s.pc.toNat) = .error e) :
    step s = .next (s.advance.raise (.decodeFatal s.pc (s.mem.wordAt s.pc.toNat)
      ((s.mem.wordAt s.pc.toNat).extractLsb' 26 6) ((s.mem.wordAt s.pc.toNat).extractLsb' 0 6))) := by
  rw [step_of_inBounds hs hb, dispatch, he, State.advance_raiseDecode]

/-- Settles O29: a word that is not defined does not decode, so the step raises from the advanced state. -/
theorem undefinedWordRaisesDecodeFatal : Obligations.UndefinedWordRaisesDecodeFatal :=
  fun s hs hb hundef =>
    ⟨_, step_of_decode_error hs hb (decode_of_not_definedWord _ hundef), enteredFatal_raise s.advance _⟩

/-- Everything a step of a Running engine can come to: the fetch fault, DecodeFatal, or an instruction. -/
theorem step_cases_of_running (hs : s.status = .running) :
    step s = .next s.raiseFetch ∨ (∃ w, step s = .next (s.advance.raiseDecode w)) ∨ ∃ i, step s = exec i s.advance := by
  rcases stepWith_cases Config.params s exec with ⟨_, hfatal, -⟩ | ⟨-, -, h⟩ | ⟨-, -, -, h⟩ | ⟨-, -, i, -, h⟩
  · cases hs.symm.trans hfatal
  · exact .inl h
  · exact .inr (.inl ⟨_, h⟩)
  · exact .inr (.inr ⟨i, h⟩)

/-- R63, R99: from a FATAL state the model's step answers the fault. -/
theorem step_of_fatal {info : FatalInfo} (hs : s.status = .fatal info) : step s = .fault (.engineInFatal info) := by
  simp only [step, stepWith, hs]

/-- Settles O32: each of the three ends is a next state, and the status decides between them and the fault. -/
theorem stepExistsExactlyWhenRunning : Obligations.StepExistsExactlyWhenRunning := by
  refine fun s => ⟨fun hs => ?_, fun info => step_of_fatal⟩
  rcases step_cases_of_running hs with h | ⟨_, h⟩ | ⟨i, h⟩
  · exact ⟨_, h⟩
  · exact ⟨_, h⟩
  · rw [h]
    exact exec_answers s.advance i

/-- R99, R104: a step that enters FATAL raises before the fetch advance with a fetch record, or after it with another. -/
theorem eq_raise_of_step_fatal {t : State} {info : FatalInfo} (hs : s.status = .running) (h : step s = .next t)
    (hinfo : t.status = .fatal info) :
    (t = s.raise info ∧ ∃ a ipc, info = .memoryBoundsFatal .fetch a ipc) ∨
    (t = s.advance.raise info ∧ ¬ ∃ a ipc, info = .memoryBoundsFatal .fetch a ipc) := by
  rcases step_cases_of_running hs with hfetch | ⟨w, hdecode⟩ | ⟨i, hexec⟩
  · cases hfetch.symm.trans h
    cases hinfo
    exact .inl ⟨rfl, _, _, rfl⟩
  · cases hdecode.symm.trans h
    cases hinfo
    exact .inr ⟨rfl, by rintro ⟨_, _, hne⟩; cases hne⟩
  · rcases exec_status s.advance (hexec.symm.trans h) with hstatus | ⟨acc, a, hacc, rfl⟩
    · cases (hstatus.trans hs).symm.trans hinfo
    · cases hinfo
      exact .inr ⟨rfl, by rintro ⟨_, _, hne⟩; cases hne; exact hacc rfl⟩

end

/-- Settles O30: FATAL is entered by `raise` alone, which changes the status alone; `run_of_fatal` and the reset state give
the other two clauses. -/
theorem fatalIsPreciseAndTerminal : Obligations.FatalIsPreciseAndTerminal := by
  refine ⟨fun s t info hs h hinfo => ?_, fun s info => run_of_fatal, fun size image s t h => ?_⟩
  · rcases eq_raise_of_step_fatal hs h hinfo with ⟨rfl, hfetch⟩ | ⟨rfl, hother⟩
    · exact ⟨fun _ => rfl, rfl, fun _ => rfl, fun _ => rfl, fun hother => absurd hfetch hother⟩
    · exact ⟨fun _ => rfl, rfl, fun _ => rfl, fun hfetch => absurd hfetch hother, fun _ => rfl⟩
  · rw [(eq_of_hostReset_eq_started h).2]
    rfl

/-! ## The order of the conditions (R103) -/

/-- R103: an instruction that is no load and no store keeps the status. -/
theorem exec_status_of_not_access {i : Instr} (hlw : ∀ rt rs imm, i ≠ .lw rt rs imm)
    (hsw : ∀ rt rs imm, i ≠ .sw rt rs imm) {s t : State} (h : exec i s = .next t) : t.status = s.status := by
  cases exec_effect h with
  | loadFault rt rs imm => exact absurd rfl (hlw rt rs imm)
  | storeFault rt rs imm => exact absurd rfl (hsw rt rs imm)
  | result | transfer | link | store => rfl

section

variable (s : State) (rt rs : Reg) (imm : BitVec 16)

/-- The hardware's `EA_WRAP` lets every address pass. -/
theorem exec_lw_of_inBounds (hb : inBounds Config.params.memSize (eaWord (s.reg rs) imm) = true) :
    exec (.lw rt rs imm) s = .next (s.setReg rt (s.mem.wordAt (eaWord (s.reg rs) imm).toNat)) := by
  rcases loadWord_cases Config.params s rt rs imm with ⟨-, -, h⟩ | ⟨hmode | hout, -⟩
  · exact h
  · cases hmode
  · exact absurd (inBounds_iff.1 hb) hout

theorem exec_lw_of_not_inBounds (hb : inBounds Config.params.memSize (eaWord (s.reg rs) imm) = false) :
    exec (.lw rt rs imm) s = .next (s.raiseAccess .load (eaWord (s.reg rs) imm)) := by
  rcases loadWord_cases Config.params s rt rs imm with ⟨-, hin, -⟩ | ⟨-, h⟩
  · cases hb.symm.trans (inBounds_iff.2 hin)
  · exact h

theorem exec_sw_of_inBounds (hb : inBounds Config.params.memSize (eaWord (s.reg rs) imm) = true) :
    exec (.sw rt rs imm) s = .next (s.setMem (s.mem.putWord (eaWord (s.reg rs) imm).toNat (s.reg rt))) := by
  rcases storeWord_cases Config.params s rt rs imm with ⟨-, -, h⟩ | ⟨hmode | hout, -⟩
  · exact h
  · cases hmode
  · exact absurd (inBounds_iff.1 hb) hout

theorem exec_sw_of_not_inBounds (hb : inBounds Config.params.memSize (eaWord (s.reg rs) imm) = false) :
    exec (.sw rt rs imm) s = .next (s.raiseAccess .store (eaWord (s.reg rs) imm)) := by
  rcases storeWord_cases Config.params s rt rs imm with ⟨-, hin, -⟩ | ⟨-, h⟩
  · cases hb.symm.trans (inBounds_iff.2 hin)
  · exact h

/-- R101: the status after a load on this hardware. -/
theorem exec_lw_status : ∃ t, exec (.lw rt rs imm) s = .next t ∧ t.status =
    if inBounds Config.params.memSize (eaWord (s.reg rs) imm) = true then s.status
    else .fatal (.memoryBoundsFatal .load (eaWord (s.reg rs) imm) s.ipc) := by
  cases hb : inBounds Config.params.memSize (eaWord (s.reg rs) imm) with
  | true => exact ⟨_, exec_lw_of_inBounds s rt rs imm hb, rfl⟩
  | false => exact ⟨_, exec_lw_of_not_inBounds s rt rs imm hb, rfl⟩

/-- R101: the status after a store on this hardware. -/
theorem exec_sw_status : ∃ t, exec (.sw rt rs imm) s = .next t ∧ t.status =
    if inBounds Config.params.memSize (eaWord (s.reg rs) imm) = true then s.status
    else .fatal (.memoryBoundsFatal .store (eaWord (s.reg rs) imm) s.ipc) := by
  cases hb : inBounds Config.params.memSize (eaWord (s.reg rs) imm) with
  | true => exact ⟨_, exec_sw_of_inBounds s rt rs imm hb, rfl⟩
  | false => exact ⟨_, exec_sw_of_not_inBounds s rt rs imm hb, rfl⟩

end

/-- Settles O31: the cases follow the cycle, fetch, then decode, then the access of a load or a store. -/
theorem fatalConditionsComeInOrder : Obligations.FatalConditionsComeInOrder := by
  intro s hs
  cases hb : inBounds Config.params.memSize s.pc with
  | false => exact ⟨_, step_of_not_inBounds hs hb, rfl⟩
  | true =>
    cases hd : decode Config.params.functMap (s.mem.wordAt s.pc.toNat) with
    | error e =>
      exact ⟨_, step_of_decode_error hs hb hd, rfl⟩
    | ok i =>
      rw [step_of_decode_ok hs hb hd]
      simp only [Bool.true_eq_false, if_false]
      cases i with
      | lw rt rs imm =>
        obtain ⟨t, ht, hstatus⟩ := exec_lw_status s.advance rt rs imm
        rw [State.advance_reg, State.advance_ipc, State.advance_status, hs] at hstatus
        exact ⟨t, ht, hstatus⟩
      | sw rt rs imm =>
        obtain ⟨t, ht, hstatus⟩ := exec_sw_status s.advance rt rs imm
        rw [State.advance_reg, State.advance_ipc, State.advance_status, hs] at hstatus
        exact ⟨t, ht, hstatus⟩
      | add | sub | and | or | xor | nor | slt | sll | srl | sra | addi | andi | ori | xori | slti | beq | bne | j | jal
        | jr =>
        obtain ⟨t, ht⟩ := exec_answers s.advance _
        exact ⟨t, ht, (exec_status_of_not_access (by simp) (by simp) ht).trans hs⟩

/-- Settles O44: a transfer keeps the engine Running, so a bad `pc` is left to the fetch of the next step. -/
theorem badTargetFaultsAtTheNextFetch : Obligations.BadTargetFaultsAtTheNextFetch := by
  intro s i hs hb hd hi
  obtain ⟨t, ht⟩ := exec_answers s.advance i
  have hrunning : t.status = .running := (IsTransfer.exec_keeps_status_mem hi ht).1.trans hs
  exact ⟨t, (step_of_decode_ok hs hb hd).trans ht, hrunning, fun hbt => step_enteredFatal_of_not_inBounds hrunning hbt⟩

end Sys2Proof.Machine

/-! PROOF. Addresses and words in memory (20_memory.md R34, R38, R46; 44_load_store.md R88): the effective address, the bounds
of an access, overlapping accesses, loads and stores on this hardware, and its `sra`. -/

namespace Sys2Proof.Machine

/-! ## The effective address (R88) -/

section

variable (base : Word) (imm : BitVec 16)

theorem eaInt_eq : eaInt base imm = (base.toNat : Int) + imm.toInt := by rw [eaInt, sext32_toInt]

theorem eaWord_toNat : ((eaWord base imm).toNat : Int) = ((base.toNat : Int) + imm.toInt) % 2 ^ 32 := by
  rw [eaWord, BitVec.toNat_ofInt, eaInt_eq]
  omega

theorem eaFits_iff : eaFits base imm = true ↔
    0 ≤ (base.toNat : Int) + imm.toInt ∧ (base.toNat : Int) + imm.toInt < 2 ^ 32 := by
  rw [eaFits, Bool.and_eq_true, decide_eq_true_eq, decide_eq_true_eq, eaInt_eq]

/-- With the default `MEM_SIZE` an address below 0 wraps to one out of bounds, so only a sum that reaches 2^32 wraps to
one in bounds. -/
theorem le_base_of_not_eaFits_of_inBounds (hfits : eaFits base imm = false)
    (hb : inBounds Config.params.memSize (eaWord base imm) = true) :
    0xFFFF8001 ≤ base.toNat ∧ 0 < imm.toInt ∧ 2 ^ 32 ≤ (base.toNat : Int) + imm.toInt := by
  have hsum : ¬ (0 ≤ (base.toNat : Int) + imm.toInt ∧ (base.toNat : Int) + imm.toInt < 2 ^ 32) :=
    fun h => Bool.eq_false_iff.1 hfits ((eaFits_iff base imm).2 h)
  have hea := eaWord_toNat base imm
  have hsize : (eaWord base imm).toNat + 3 < 0x100000 := inBounds_iff.1 hb
  have hbase := base.isLt
  have hlow := imm.le_toInt
  have hhigh := imm.toInt_lt
  omega

end

/-- Settles O17: the address is the sum modulo 2^32, and the two modes differ where the sum does not fit. -/
theorem effectiveAddressUnderBothModes : Obligations.EffectiveAddressUnderBothModes :=
  fun base imm => ⟨eaWord_toNat base imm, rfl, eaFits_iff base imm, le_base_of_not_eaFits_of_inBounds base imm⟩

/-! ## Bounds and overlapping accesses (R34, R38) -/

/-- Settles O38: the last of the four bytes is below the size exactly when all are. -/
theorem boundsAreThoseOfAllFourBytes : Obligations.BoundsAreThoseOfAllFourBytes := by
  intro size a
  rw [inBounds_iff]
  exact ⟨fun h k hk => by omega, fun h => h 3 (by decide)⟩

/-- Byte `k` of the word at `b` after `v` is put at `a`. -/
theorem Memory.wordByte_wordAt_putWord {m : Memory} (hw : m.wf = true) (a b : Nat) (v : Word) {k : Nat} (hk : k < 4) :
    wordByte ((m.putWord a v).wordAt b) k =
      if a ≤ b + k ∧ b + k < a + 4 then wordByte v (b + k - a) else m.read (b + k) := by
  rw [Memory.wordByte_wordAt _ b hk, Memory.read_putWord hw]

/-- Settles O41: a word read is its bytes, and each is that of the write or the old one. -/
theorem readAfterWriteMergesBytes : Obligations.ReadAfterWriteMergesBytes := by
  intro size m a b v hw ha hb
  refine ⟨_, _, memWrite_of_inBounds ha m v, memRead_of_inBounds hb _, fun k hk => ?_, fun hab => ?_⟩
  · exact Memory.wordByte_wordAt_putWord hw a.toNat b.toNat v hk
  · rw [← hab]
    exact Memory.wordAt_putWord hw a.toNat v

/-! ## Loads and stores on this hardware (R89, R90) -/

/-- The bounds check with the default `MEM_SIZE`. -/
theorem inBounds_params_of_le {a : Word} (h : a.toNat ≤ 0xFFFFC) : inBounds Config.params.memSize a = true := by
  have hsize : Config.params.memSize = 0x100000 := rfl
  rw [inBounds_iff]
  omega

/-- Settles O19: in bounds the load writes the word at the address, which is its four bytes. -/
theorem loadWordCompletesInBounds : Obligations.LoadWordCompletesInBounds := by
  intro rt rs imm s hea
  exact ⟨_, exec_lw_of_inBounds s rt rs imm (inBounds_params_of_le hea), onlyRegWritten_setReg rt _ s,
    s.setReg_reg_same rt _⟩

/-- Settles O21: in bounds the store puts the word at the address, which changes those four bytes alone. -/
theorem storeWordCompletesInBounds : Obligations.StoreWordCompletesInBounds := by
  intro rt rs imm s hw hea
  have hb := inBounds_params_of_le hea
  refine ⟨_, exec_sw_of_inBounds s rt rs imm hb, ?_, fun a hout => ?_, fun _ => rfl, rfl, rfl, rfl⟩
  · rw [memRead_of_inBounds hb]
    exact congrArg some (Memory.wordAt_putWord hw _ _)
  · exact Memory.read_putWord_outside hw (s.reg rt) hout

/-- Settles O42: the store leaves the engine Running at the advanced PC, where the word in memory is now `x[rt]`. -/
theorem nextFetchSeesAStoreToIt : Obligations.NextFetchSeesAStoreToIt := by
  intro s rt rs imm j hs hw hb hd hea hb' hj
  have hea' : eaWord (s.advance.reg rs) imm = s.pc + 4 := hea
  have hexec := exec_sw_of_inBounds s.advance rt rs imm (hea' ▸ hb')
  rw [hea'] at hexec
  refine ⟨_, (step_of_decode_ok hs hb hd).trans hexec, rfl, ?_⟩
  have hword : (s.mem.putWord (s.pc + 4).toNat (s.reg rt)).wordAt (s.pc + 4).toNat = s.reg rt :=
    Memory.wordAt_putWord hw _ _
  rw [step_of_decode_ok (s := s.advance.setMem _) (i := j) hs hb' (hword.symm ▸ hj), State.advance, State.setMem_pc,
    State.advance_pc, BitVec.add_assoc]
  rfl

/-! ## `sra` on this hardware (R82) -/

/-- R14: a right shift with copies of bit 31, bit by bit. -/
theorem shiftRightSign_getLsbD (a : Word) (n : BitVec 5) {k : Nat} (hk : k < 32) :
    (shiftRightSign a n).getLsbD k = if k + n.toNat < 32 then a.getLsbD (k + n.toNat) else a.getLsbD 31 := by
  rw [shiftRightSign, BitVec.getLsbD_sshiftRight, decide_eq_false (Nat.not_le.2 hk), Nat.add_comm,
    BitVec.msb_eq_getLsbD_last]
  rfl

/-- Settles O11: the hardware's mode is the right shift that copies bit 31. -/
theorem sraOnThisHardwareFillsWithSign : Obligations.SraOnThisHardwareFillsWithSign :=
  fun rd rt sa s => writeBack_onlyRegWritten rd s
    (fun v => ∀ k < 32, v.getLsbD k =
      if k + sa.toNat < 32 then (s.reg rt).getLsbD (k + sa.toNat) else (s.reg rt).getLsbD 31)
    fun _ hk => shiftRightSign_getLsbD (s.reg rt) sa hk

end Sys2Proof.Machine
